-- ==== Sys2Proof/Word.lean ====
section
/-! DEFINITION. The word types of the CHIP-8 CORE (spec/00_scope.md R6 to R8). -/

namespace Sys2Proof

/-- A byte: a general register, a timer, a memory cell (R6 `REGW`, `TIMERW`). -/
abbrev Byte := BitVec 8

/-- An address: the value of `pc`, `I` and a stack entry (R6 `ADDRW`). -/
abbrev Addr := BitVec 12

/-- An instruction word (R6 `OPW`). -/
abbrev Opcode := BitVec 16

/-- A four-bit field of an instruction word: the row count `n` of Dxyn (R82). -/
abbrev Nibble := BitVec 4

/-- The index of a general register V0 to VF (R21), as a four-bit field names it (R82). -/
abbrev Reg := BitVec 4

end Sys2Proof
end

