-- ==== Sys2Proof/Config.lean ====
section
/-! DEFINITION. The parameters of spec/00_scope.md R6 that a rule names as a value, and the free inputs of a cycle
(spec/10_state.md R51 to R53; log 1). -/

namespace Sys2Proof.Config

/-- `MEMSIZE`, the number of bytes of the memory array (R6, R60). -/
abbrev memSize : Nat := 4096

/-- The highest address, 0xFFF (R10, R60). -/
abbrev maxAddr : Nat := 0xFFF

/-- `STACKDEPTH` (R6, R25). -/
abbrev stackDepth : Nat := 16

/-- `PC_RESET` (R6, R26). -/
abbrev pcReset : Addr := 0x200#12

/-- `ROM_BASE` (R6, R56). -/
abbrev romBase : Nat := 0x200

/-- `ROM_MAX`, the longest ROM `load_rom` accepts (R6, R252). -/
abbrev romMax : Nat := 3584

/-- `FLAGREG`, the index of VF (R6, R22). -/
abbrev vf : Reg := 0xF#4

/-- FREE VALUE (log 1): the keypad snapshot the host presents at activation number `n`, where the state's script of
inputs says none. Nothing constrains it (R53). -/
opaque freeKeys : Nat → Vector Bool 16

/-- FREE VALUE (log 1): the `tick` input at activation number `n`, where the script says none (R51). -/
opaque freeTick : Nat → Bool

/-- FREE VALUE (log 1): the `rnd` input at activation number `n`, where the script says none: "a free input under no
law" (R52). -/
opaque freeRnd : Nat → Byte

end Sys2Proof.Config
end

