-- ==== Sys2Proof/WellFormed.lean ====
section
/-! DEFINITION. Well-formedness, of the two things that can be ill formed on this hardware: an instruction word
(spec/30_encoding.md R87 to R91, the decode-failure space) and a ROM image (spec/70_reset_and_hazards.md R252).
A term of `Instr` is well formed by its type: each operand has exactly its field's width (R82), and every value of
every field is legal (R82, R96), so no further check on `Instr` exists. -/

namespace Sys2Proof

/-- Family 0x0 has exactly the two words 00E0 and 00EE (R87). -/
def wellFormedFamily0 (op : Opcode) : Bool :=
  op == 0x00E0#16 || op == 0x00EE#16

/-- Families 0x5 and 0x9 need a low nibble of 0 (R88). -/
def wellFormedFamily59 (n : Nat) : Bool :=
  n == 0

/-- Family 0x8 defines the low nibbles 0 to 7 and E (R89). -/
def wellFormedFamily8 (n : Nat) : Bool :=
  [0x0, 0x1, 0x2, 0x3, 0x4, 0x5, 0x6, 0x7, 0xE].contains n

/-- Family 0xE defines the low bytes 9E and A1 (R90). -/
def wellFormedFamilyE (kk : Nat) : Bool :=
  [0x9E, 0xA1].contains kk

/-- Family 0xF defines nine low bytes (R90). -/
def wellFormedFamilyF (kk : Nat) : Bool :=
  [0x07, 0x0A, 0x15, 0x18, 0x1E, 0x29, 0x33, 0x55, 0x65].contains kk

/-- The word is outside the decode-failure space of R91, family by family; the families R91 does not name have no
failure encodings. -/
def wellFormedWord (op : Opcode) : Bool :=
  let n := op.toNat % 16
  let kk := op.toNat % 256
  match op.toNat / 4096 with
  | 0x0 => wellFormedFamily0 op
  | 0x5 => wellFormedFamily59 n
  | 0x9 => wellFormedFamily59 n
  | 0x8 => wellFormedFamily8 n
  | 0xE => wellFormedFamilyE kk
  | 0xF => wellFormedFamilyF kk
  | _ => true

/-- The ROM fits the memory above 0x200 (R252). -/
def wellFormedRom (bytes : List Byte) : Bool :=
  bytes.length ≤ Config.romMax

end Sys2Proof
end

