-- ==== Sys2Proof/Decode.lean ====
section
/-! DEFINITION. The decoder (spec/30_encoding.md R82, R85, R95), total on any word and any bytes and rejecting by
name, then the encoder, written from the opcode map of R86 and the formats of R83. -/

namespace Sys2Proof

/-- Why bytes are no instruction. -/
inductive DecodeError where
  /-- `DecodeFailure`: the word matches no row of the opcode map (R85, R91). -/
  | decodeFailure (op : Opcode)
  /-- Fewer than the two bytes of a word (R80). The fetch never meets this: it reads two bytes or faults (R104). -/
  | truncated
  deriving DecidableEq, Repr

/-- The family `op[15:12]` (R81). -/
def fieldH (op : Opcode) : Nibble := op.extractLsb' 12 4

/-- The field `x = op[11:8]` (R82). -/
def fieldX (op : Opcode) : Reg := op.extractLsb' 8 4

/-- The field `y = op[7:4]` (R82). -/
def fieldY (op : Opcode) : Reg := op.extractLsb' 4 4

/-- The field `n = op[3:0]` (R82). -/
def fieldN (op : Opcode) : Nibble := op.extractLsb' 0 4

/-- The field `kk = op[7:0]` (R82). -/
def fieldKK (op : Opcode) : Byte := op.extractLsb' 0 8

/-- The field `nnn = op[11:0]` (R82). -/
def fieldNNN (op : Opcode) : Addr := op.extractLsb' 0 12

/-- Family 0x0: each word needs all its bits to match (R87). -/
def decodeFamily0 (op : Opcode) : Except DecodeError Instr :=
  if op = 0x00E0#16 then .ok .cls
  else if op = 0x00EE#16 then .ok .ret
  else .error (.decodeFailure op)

/-- Family 0x8: the low nibble selects the operation (R89). -/
def decodeFamily8 (op : Opcode) : Except DecodeError Instr :=
  let x := fieldX op
  let y := fieldY op
  match (fieldN op).toNat with
  | 0x0 => .ok (.ldReg x y)
  | 0x1 => .ok (.orReg x y)
  | 0x2 => .ok (.andReg x y)
  | 0x3 => .ok (.xorReg x y)
  | 0x4 => .ok (.addReg x y)
  | 0x5 => .ok (.subReg x y)
  | 0x6 => .ok (.shr x y)
  | 0x7 => .ok (.subnReg x y)
  | 0xE => .ok (.shl x y)
  | _ => .error (.decodeFailure op)

/-- Family 0xE: the low byte selects the operation (R90). -/
def decodeFamilyE (op : Opcode) : Except DecodeError Instr :=
  let x := fieldX op
  if fieldKK op = 0x9E#8 then .ok (.skp x)
  else if fieldKK op = 0xA1#8 then .ok (.sknp x)
  else .error (.decodeFailure op)

/-- Family 0xF: the low byte selects the operation (R90). -/
def decodeFamilyF (op : Opcode) : Except DecodeError Instr :=
  let x := fieldX op
  let kk := fieldKK op
  if kk = 0x07#8 then .ok (.ldVxDt x)
  else if kk = 0x0A#8 then .ok (.ldVxK x)
  else if kk = 0x15#8 then .ok (.ldDtVx x)
  else if kk = 0x18#8 then .ok (.ldStVx x)
  else if kk = 0x1E#8 then .ok (.addI x)
  else if kk = 0x29#8 then .ok (.ldF x)
  else if kk = 0x33#8 then .ok (.ldB x)
  else if kk = 0x55#8 then .ok (.ldMemVx x)
  else if kk = 0x65#8 then .ok (.ldVxMem x)
  else .error (.decodeFailure op)

/-- The decoder of R95: a function of the word alone (R94). -/
def decode (op : Opcode) : Except DecodeError Instr :=
  let x := fieldX op
  let y := fieldY op
  let kk := fieldKK op
  let nnn := fieldNNN op
  match (fieldH op).toNat with
  | 0x0 => decodeFamily0 op
  | 0x1 => .ok (.jp nnn)
  | 0x2 => .ok (.call nnn)
  | 0x3 => .ok (.seImm x kk)
  | 0x4 => .ok (.sneImm x kk)
  | 0x5 => if fieldN op = 0 then .ok (.seReg x y) else .error (.decodeFailure op)
  | 0x6 => .ok (.ldImm x kk)
  | 0x7 => .ok (.addImm x kk)
  | 0x8 => decodeFamily8 op
  | 0x9 => if fieldN op = 0 then .ok (.sneReg x y) else .error (.decodeFailure op)
  | 0xA => .ok (.ldI nnn)
  | 0xB => .ok (.jpV0 nnn)
  | 0xC => .ok (.rnd x kk)
  | 0xD => .ok (.drw x y (fieldN op))
  | 0xE => decodeFamilyE op
  | 0xF => decodeFamilyF op
  | _ => .error (.decodeFailure op)

/-- The word of two consecutive bytes, the byte at the lower address on the more significant side (R62). -/
def wordOfBytes (hi lo : Byte) : Opcode := hi ++ lo

/-- The decoder over a list of bytes: the first instruction and the bytes after it. -/
def decodeBytes : List Byte → Except DecodeError (Instr × List Byte)
  | hi :: lo :: rest =>
    match decode (wordOfBytes hi lo) with
    | .ok i => .ok (i, rest)
    | .error e => .error e
  | _ => .error .truncated

/-- The word of an opcode-table row's instruction: `w` on the table's bits, 0 above the `nbits` the table gives. -/
def tableWord (nbits w : Nat) : Opcode := BitVec.ofNat 16 (w % 2 ^ nbits)

/-- The two bytes of a word as the memory stores them, the lower address first: big-endian (R62). -/
def bytesOfWord (op : Opcode) : List Byte := [op.extractLsb' 8 8, op.extractLsb' 0 8]

/-- The instruction the decoder reads from the bytes of a table row's word. -/
def decodeTableWord (nbits w : Nat) : Option Instr :=
  match decodeBytes (bytesOfWord (tableWord nbits w)) with
  | .ok (i, _) => some i
  | .error _ => none

/-- Format FXK and FX: family, `x` and a low byte (R83). -/
def wordXK (h : Nibble) (x : Reg) (kk : Byte) : Opcode := h ++ (x ++ kk)

/-- Format FXY and FXYN: family, `x`, `y` and a low nibble (R83). -/
def wordXYN (h : Nibble) (x y : Reg) (n : Nibble) : Opcode := h ++ (x ++ (y ++ n))

/-- Format FA: family and `nnn` (R83). -/
def wordA (h : Nibble) (nnn : Addr) : Opcode := h ++ nnn

/-- The word of an instruction (R83, R86). -/
def encode : Instr → Opcode
  | .cls => 0x00E0#16
  | .ret => 0x00EE#16
  | .jp nnn => wordA 0x1#4 nnn
  | .call nnn => wordA 0x2#4 nnn
  | .seImm x kk => wordXK 0x3#4 x kk
  | .sneImm x kk => wordXK 0x4#4 x kk
  | .seReg x y => wordXYN 0x5#4 x y 0x0#4
  | .ldImm x kk => wordXK 0x6#4 x kk
  | .addImm x kk => wordXK 0x7#4 x kk
  | .ldReg x y => wordXYN 0x8#4 x y 0x0#4
  | .orReg x y => wordXYN 0x8#4 x y 0x1#4
  | .andReg x y => wordXYN 0x8#4 x y 0x2#4
  | .xorReg x y => wordXYN 0x8#4 x y 0x3#4
  | .addReg x y => wordXYN 0x8#4 x y 0x4#4
  | .subReg x y => wordXYN 0x8#4 x y 0x5#4
  | .shr x y => wordXYN 0x8#4 x y 0x6#4
  | .subnReg x y => wordXYN 0x8#4 x y 0x7#4
  | .shl x y => wordXYN 0x8#4 x y 0xE#4
  | .sneReg x y => wordXYN 0x9#4 x y 0x0#4
  | .ldI nnn => wordA 0xA#4 nnn
  | .jpV0 nnn => wordA 0xB#4 nnn
  | .rnd x kk => wordXK 0xC#4 x kk
  | .drw x y n => wordXYN 0xD#4 x y n
  | .skp x => wordXK 0xE#4 x 0x9E#8
  | .sknp x => wordXK 0xE#4 x 0xA1#8
  | .ldVxDt x => wordXK 0xF#4 x 0x07#8
  | .ldVxK x => wordXK 0xF#4 x 0x0A#8
  | .ldDtVx x => wordXK 0xF#4 x 0x15#8
  | .ldStVx x => wordXK 0xF#4 x 0x18#8
  | .addI x => wordXK 0xF#4 x 0x1E#8
  | .ldF x => wordXK 0xF#4 x 0x29#8
  | .ldB x => wordXK 0xF#4 x 0x33#8
  | .ldMemVx x => wordXK 0xF#4 x 0x55#8
  | .ldVxMem x => wordXK 0xF#4 x 0x65#8

/-- A row of the opcode map: a word matches when its bits under `mask` are `word` (R85). -/
structure OpcodeRow where
  word : Opcode
  mask : Opcode
  deriving DecidableEq, Repr

/-- The row of each instruction, as R86 lists it. -/
def opcodeRow : Instr → OpcodeRow
  | .cls => ⟨0x00E0#16, 0xFFFF#16⟩
  | .ret => ⟨0x00EE#16, 0xFFFF#16⟩
  | .jp _ => ⟨0x1000#16, 0xF000#16⟩
  | .call _ => ⟨0x2000#16, 0xF000#16⟩
  | .seImm _ _ => ⟨0x3000#16, 0xF000#16⟩
  | .sneImm _ _ => ⟨0x4000#16, 0xF000#16⟩
  | .seReg _ _ => ⟨0x5000#16, 0xF00F#16⟩
  | .ldImm _ _ => ⟨0x6000#16, 0xF000#16⟩
  | .addImm _ _ => ⟨0x7000#16, 0xF000#16⟩
  | .ldReg _ _ => ⟨0x8000#16, 0xF00F#16⟩
  | .orReg _ _ => ⟨0x8001#16, 0xF00F#16⟩
  | .andReg _ _ => ⟨0x8002#16, 0xF00F#16⟩
  | .xorReg _ _ => ⟨0x8003#16, 0xF00F#16⟩
  | .addReg _ _ => ⟨0x8004#16, 0xF00F#16⟩
  | .subReg _ _ => ⟨0x8005#16, 0xF00F#16⟩
  | .shr _ _ => ⟨0x8006#16, 0xF00F#16⟩
  | .subnReg _ _ => ⟨0x8007#16, 0xF00F#16⟩
  | .shl _ _ => ⟨0x800E#16, 0xF00F#16⟩
  | .sneReg _ _ => ⟨0x9000#16, 0xF00F#16⟩
  | .ldI _ => ⟨0xA000#16, 0xF000#16⟩
  | .jpV0 _ => ⟨0xB000#16, 0xF000#16⟩
  | .rnd _ _ => ⟨0xC000#16, 0xF000#16⟩
  | .drw _ _ _ => ⟨0xD000#16, 0xF000#16⟩
  | .skp _ => ⟨0xE09E#16, 0xF0FF#16⟩
  | .sknp _ => ⟨0xE0A1#16, 0xF0FF#16⟩
  | .ldVxDt _ => ⟨0xF007#16, 0xF0FF#16⟩
  | .ldVxK _ => ⟨0xF00A#16, 0xF0FF#16⟩
  | .ldDtVx _ => ⟨0xF015#16, 0xF0FF#16⟩
  | .ldStVx _ => ⟨0xF018#16, 0xF0FF#16⟩
  | .addI _ => ⟨0xF01E#16, 0xF0FF#16⟩
  | .ldF _ => ⟨0xF029#16, 0xF0FF#16⟩
  | .ldB _ => ⟨0xF033#16, 0xF0FF#16⟩
  | .ldMemVx _ => ⟨0xF055#16, 0xF0FF#16⟩
  | .ldVxMem _ => ⟨0xF065#16, 0xF0FF#16⟩

/-- The word matches the row of the instruction (R85). -/
def matchesRow (op : Opcode) (i : Instr) : Bool :=
  op &&& (opcodeRow i).mask == (opcodeRow i).word

end Sys2Proof
end

