-- ==== Sys2Proof/Machine/Font.lean ====
section
/-! DEFINITION. The built-in font's default (spec/10_state.md R33; log 3). -/

namespace Sys2Proof.Machine

/-- The 80 bytes of the parameter `FONT`: glyph `n` at `5n` to `5n + 4`, a row a byte from the top (R33). -/
abbrev Font := Vector Byte 80

/-- PRESUMED (log 3): the conventional CHIP-8 font, which R33 gives as the default of `FONT` "from general knowledge,
not in source". -/
def defaultFont : Font :=
  (#v[0xF0, 0x90, 0x90, 0x90, 0xF0,  0x20, 0x60, 0x20, 0x20, 0x70] : Vector Byte 10)
  ++ (#v[0xF0, 0x10, 0xF0, 0x80, 0xF0,  0xF0, 0x10, 0xF0, 0x10, 0xF0] : Vector Byte 10)
  ++ (#v[0x90, 0x90, 0xF0, 0x10, 0x10,  0xF0, 0x80, 0xF0, 0x10, 0xF0] : Vector Byte 10)
  ++ (#v[0xF0, 0x80, 0xF0, 0x90, 0xF0,  0xF0, 0x10, 0x20, 0x40, 0x40] : Vector Byte 10)
  ++ (#v[0xF0, 0x90, 0xF0, 0x90, 0xF0,  0xF0, 0x90, 0xF0, 0x10, 0xF0] : Vector Byte 10)
  ++ (#v[0xF0, 0x90, 0xF0, 0x90, 0x90,  0xE0, 0x90, 0xE0, 0x90, 0xE0] : Vector Byte 10)
  ++ (#v[0xF0, 0x80, 0x80, 0x80, 0xF0,  0xE0, 0x90, 0x90, 0x90, 0xE0] : Vector Byte 10)
  ++ (#v[0xF0, 0x80, 0xF0, 0x80, 0xF0,  0xF0, 0x80, 0xF0, 0x80, 0x80] : Vector Byte 10)

end Sys2Proof.Machine
end

