-- ==== Sys2Proof/Machine/State.lean ====
section
/-! DEFINITION. The state of the CORE (spec/10_state.md R20), plain data, and its value after reset (R46). The last
four fields are the model's own (INVENTORY.md; logs 1, 2, 3). -/

namespace Sys2Proof.Machine

/-- The fault causes of spec/60_exceptions.md R220. -/
inductive Cause where
  /-- Raised by any word of the decode-failure space (R221). -/
  | decodeFailure
  /-- Raised by 2nnn with SP = 16 (R222). -/
  | stackOverflow
  /-- Raised by 00EE with SP = 0 (R223). -/
  | stackUnderflow
  /-- Raised by the fetch at 0xFFF, and by Dxyn, Fx33, Fx55, Fx65 whose span passes 0xFFF (R224). -/
  | addressOutOfRange
  /-- Raised by any write of the pc above 0xFFF, and by 2nnn whose return address is (R225). -/
  | pcOutOfRange
  /-- Raised by Ex9E and ExA1 with Vx above 15 (R228). -/
  | keyIndexOutOfRange
  deriving DecidableEq, Repr

/-- The fault record (R44): the cause, the address of the instruction that faulted, the fetched opcode (absent when
the fetch itself faulted) and the cause's value (absent for the causes that record none). -/
structure FaultRecord where
  cause : Cause
  ia : Addr
  opcode : Option Opcode
  info : Option Nat
  deriving DecidableEq, Repr

/-- The await-keypad state (R35). -/
inductive Await where
  /-- `RUNNING`: each cycle fetches. -/
  | running
  /-- `AWAITING_KEY(d)`: each cycle scans the keypad, for register `d`. -/
  | awaitingKey (d : Reg)
  deriving DecidableEq, Repr

/-- The inputs of one activation (R51, R52, R53). -/
structure CycleInput where
  keys : Vector Bool 16
  tick : Bool
  rnd : Byte
  deriving DecidableEq, Repr

/-- The memory array's listed cells, addresses rising (`Memory.wf`): the cells that differ from their reset content. -/
abbrev Memory := List Host.Cell

/-- The framebuffer: row `r` of 32, whose bit `c` is the cell of column `c` of 64 (R32, R41; log 24). -/
abbrev Framebuffer := Vector (BitVec 64) 32

/-- The state of the CORE. -/
structure State where
  /-- `V[0..15]` (R21). -/
  v : Vector Byte 16
  /-- `pc` (R26). -/
  pc : Addr
  /-- `I` (R27). -/
  i : Addr
  /-- `SP`, 0 to 16 (R24). -/
  sp : Fin 17
  /-- `STACK[0..15]` (R25). -/
  stack : Vector Addr 16
  /-- `DT` (R28). -/
  dt : Byte
  /-- `ST` (R29). -/
  st : Byte
  /-- `MEM[0..4095]` (R37). -/
  mem : Memory
  /-- `FB[0..31][0..63]` (R32). -/
  fb : Framebuffer
  /-- `KEYPAD[0..15]` (R31). -/
  keypad : Vector Bool 16
  /-- `DIRTY` (R34). -/
  dirty : Bool
  /-- `AWAIT` (R35). -/
  await : Await
  /-- `TICK_PENDING` (R36). -/
  tickPending : Bool
  /-- `FAULT`, `none` for `NONE` (R44). -/
  fault : Option FaultRecord
  /-- MODEL's own: the parameter `FONT` (R33; log 3). No step writes it. -/
  font : Font
  /-- MODEL's own: the inputs of the coming activations, oldest first (log 1). -/
  inputs : List CycleInput
  /-- MODEL's own: the number of activations so far, which numbers the free inputs (log 1). -/
  activations : Nat
  /-- MODEL's own: the byte on the `rnd` port in this activation (R52; log 2). -/
  rnd : Byte
  deriving DecidableEq, Repr

/-- Reasons a step could stop OUTSIDE the spec's own faults. There are none: each fault of R220 is an effect the spec
describes (R226), a next state with `fault` set, and a halted core's cycle is a next state too (R100). The type is
empty, so that `Host.Outcome.fault` cannot be built (log 4; safe). -/
inductive Fault
  deriving DecidableEq, Repr

/-- Reasons an instruction has no meaning. -/
inductive Refusal where
  /-- Raised by `exec` alone, for an instruction not modelled yet; no arm raises it (safe). -/
  | notModelled (mnemonic : String)
  deriving DecidableEq, Repr

/-- The state after reset (R46, R250). Memory lists nothing: an unlisted address reads as its reset content (R251).
The fields from `font` on are the model's (logs 1, 2, 3). -/
def State.reset : State where
  v := Vector.replicate 16 0
  pc := Config.pcReset
  i := 0
  sp := 0
  stack := Vector.replicate 16 0
  dt := 0
  st := 0
  mem := []
  fb := Vector.replicate 32 0
  keypad := Vector.replicate 16 false
  dirty := false
  await := .running
  tickPending := false
  fault := none
  font := defaultFont
  inputs := []
  activations := 0
  rnd := 0

end Sys2Proof.Machine
end

