-- ==== Sys2Proof/Machine/Memory.lean ====
section
/-! DEFINITION. The memory array (spec/10_state.md R37, spec/20_memory.md R60, R67): a canonical list of the cells
that differ from their reset content. Every operation takes the font, since the reset content holds it. -/

namespace Sys2Proof.Machine

/-- What an address that is not listed reads as: its reset content, the font in 0x000 to 0x04F and 0 elsewhere
(R46, R251; log 8). -/
def Memory.unlisted (font : Font) (a : Nat) : Byte :=
  if h : a < 80 then font[a] else 0

/-- The byte at address `a`. -/
def Memory.read (font : Font) : Memory → Nat → Byte
  | [], a => Memory.unlisted font a
  | (k, b) :: m, a => if a = k then b else Memory.read font m a

/-- Memory with address `a` no longer listed. -/
def Memory.unlist : Memory → Nat → Memory
  | [], _ => []
  | (k, c) :: m, a => if k = a then Memory.unlist m a else (k, c) :: Memory.unlist m a

/-- Memory with the cell listed before the first higher address. -/
def Memory.insert : Memory → Nat → Byte → Memory
  | [], a, b => [(a, b)]
  | (k, c) :: m, a, b => if a < k then (a, b) :: (k, c) :: m else (k, c) :: Memory.insert m a b

/-- Memory with byte `b` at address `a`: a byte equal to the reset content is not listed, so that the list keeps its
canonical form. -/
def Memory.write (font : Font) (m : Memory) (a : Nat) (b : Byte) : Memory :=
  if b = Memory.unlisted font a then Memory.unlist m a else Memory.insert (Memory.unlist m a) a b

/-- The listed addresses are at least `lo`, rise strictly, lie in the memory array, and no entry equals its reset
content. -/
def Memory.wfFrom (font : Font) : Nat → Memory → Bool
  | _, [] => true
  | lo, (k, b) :: m =>
    decide (lo ≤ k) && decide (k < Config.memSize) && decide (b ≠ Memory.unlisted font k) && Memory.wfFrom font (k + 1) m

/-- The canonical form. -/
def Memory.wf (font : Font) (m : Memory) : Bool := Memory.wfFrom font 0 m

end Sys2Proof.Machine
end

