-- ==== Sys2Proof/Machine/Ops.lean ====
section
/-! DEFINITION. The named operations over registers, memory, stack and framebuffer; the range check, `SetPC`, and
taking a fault (spec/00_scope.md R10, R11, R12; spec/60_exceptions.md R226). -/

namespace Sys2Proof.Machine

/-- What a meaning answers with. -/
abbrev Result := Host.Outcome State Fault Refusal

/-! ### Registers -/

/-- `V[r]` (R21). -/
def State.reg (s : State) (r : Reg) : Byte := s.v[r.toNat]'r.isLt

/-- `V[r] <- b` (R21). -/
def State.setReg (s : State) (r : Reg) (b : Byte) : State := { s with v := s.v.set r.toNat b r.isLt }

/-- `I <- a` (R27). -/
def State.setI (s : State) (a : Addr) : State := { s with i := a }

/-- `DT <- b` (R28). -/
def State.setDt (s : State) (b : Byte) : State := { s with dt := b }

/-- `ST <- b` (R29). -/
def State.setSt (s : State) (b : Byte) : State := { s with st := b }

/-- `AWAIT <- a` (R35). -/
def State.setAwait (s : State) (a : Await) : State := { s with await := a }

/-- The framebuffer replaced (R32). -/
def State.setFb (s : State) (f : Framebuffer) : State := { s with fb := f }

/-- `DIRTY <- true` (R34). -/
def State.markDirty (s : State) : State := { s with dirty := true }

/-! ### Memory -/

/-- The byte at address `a` (R10, R67). R10's own range check stands in `rangeCheck`, which every rule calls before
its accesses. -/
def State.readByte (s : State) (a : Nat) : Byte := Memory.read s.font s.mem a

/-- Byte `b` stored at address `a` (R10, R67). -/
def State.writeByte (s : State) (a : Nat) (b : Byte) : State := { s with mem := Memory.write s.font s.mem a b }

/-! ### Keypad and framebuffer -/

/-- `KEYPAD[k]`, false for an index no key has (R31). -/
def State.keyDown (s : State) (k : Nat) : Bool := s.keypad[k]?.getD false

/-- The cell in row `row` and column `col` (R32, R41). -/
def pixel (fb : Framebuffer) (row : Fin 32) (col : Fin 64) : Bool := fb[row].getLsbD col

/-- The framebuffer with that cell XORed with 1 (R191). -/
def flipPixel (fb : Framebuffer) (row : Fin 32) (col : Fin 64) : Framebuffer :=
  fb.set row (fb[row] ^^^ BitVec.twoPow 64 col)

/-! ### Raising a fault -/

/-- A raised fault: its cause and the value the record keeps of it (R220). -/
structure Raise where
  cause : Cause
  info : Option Nat
  deriving DecidableEq, Repr

/-- The codes of R220. -/
def Cause.code : Cause → Nat
  | .decodeFailure => 1
  | .stackOverflow => 2
  | .stackUnderflow => 3
  | .addressOutOfRange => 4
  | .pcOutOfRange => 5
  | .keyIndexOutOfRange => 6

/-- `raise DecodeFailure` (R221). -/
def raiseDecodeFailure : Raise := ⟨.decodeFailure, none⟩

/-- `raise StackOverflow()` (R222). -/
def raiseStackOverflow : Raise := ⟨.stackOverflow, none⟩

/-- `raise StackUnderflow()` (R223). -/
def raiseStackUnderflow : Raise := ⟨.stackUnderflow, none⟩

/-- `raise AddressOutOfRange(a)` (R224). -/
def raiseAddress (a : Nat) : Raise := ⟨.addressOutOfRange, some a⟩

/-- `raise PcOutOfRange(v)` (R225). -/
def raisePc (v : Nat) : Raise := ⟨.pcOutOfRange, some v⟩

/-- `raise KeyIndexOutOfRange(k)` (R228). -/
def raiseKeyIndex (k : Nat) : Raise := ⟨.keyIndexOutOfRange, some k⟩

/-- TAKING A FAULT (R226): of the state before the instruction nothing changes but `FAULT`, which records the cause,
the instruction's address, its opcode (`none` when the fetch itself faulted) and the cause's value. There is no vector,
no mode and no stack push, and no return from it but reset (R230: `State.hostReset`). -/
def takeFault (r : Raise) (opcode : Option Opcode) (s : State) : State :=
  { s with fault := some { cause := r.cause, ia := s.pc, opcode := opcode, info := r.info } }

/-- The end of an instruction's rule that began in state `s` (R11): its new state if it reached its end, else the
fault it raised, taken in `s`, so that none of its writes is kept. The record's opcode is the instruction's word
(log 5). -/
def complete (i : Instr) (s : State) (r : Except Raise State) : Result :=
  .next (match r with
    | .ok t => t
    | .error e => takeFault e (some (encode i)) s)

/-! ### The program counter, the range check and the stack -/

/-- `pc_seq = ia + 2`, a natural (R9, R104). -/
def State.pcSeq (s : State) : Nat := s.pc.toNat + 2

/-- `pc <- a` (R26). -/
def State.withPc (s : State) (a : Addr) : State := { s with pc := a }

/-- `SetPC(a)` (R12). -/
def setPc (a : Nat) (s : State) : Except Raise State :=
  if a > Config.maxAddr then .error (raisePc a) else .ok (s.withPc (BitVec.ofNat 12 a))

/-- `RangeCheck(a, n)` before the accesses that make `s` (R10): the span of `n` bytes from `a` must not pass 0xFFF,
and the fault carries the lowest address of it that does. -/
def rangeCheck (a n : Nat) (s : Except Raise State) : Except Raise State :=
  if n > 0 ∧ a + n - 1 > Config.maxAddr then .error (raiseAddress (max a (Config.maxAddr + 1))) else s

/-- The push of 2nnn in a state whose `SP` is not 16: write at SP, then increment (R24). -/
def pushReturn (a : Addr) (s : State) (h : s.sp.val < 16) : State :=
  { s with stack := s.stack.set s.sp.val a h, sp := ⟨s.sp.val + 1, by omega⟩ }

/-- The entry on top of the stack of a state whose `SP` is not 0 (R24). -/
def topReturn (s : State) (h : 0 < s.sp.val) : Addr := s.stack[s.sp.val - 1]

/-- `SP <- SP - 1` (R24); the entry is not cleared (R121). -/
def dropReturn (s : State) : State :=
  { s with sp := ⟨s.sp.val - 1, by omega⟩ }

end Sys2Proof.Machine
end

