-- ==== Sys2Proof/Machine/Operands.lean ====
section
/-! DEFINITION. The operand forms (spec/30_encoding.md R84; spec/43_index_memory.md R171). -/

namespace Sys2Proof.Machine

/-- The register `Vk` of a register index counted up from 0 (R175, R176). -/
def regOfIndex (k : Nat) : Reg := BitVec.ofNat 4 k

/-- The effective address `I + k`, a natural that does not wrap (R171). -/
def effectiveAddr (s : State) (k : Nat) : Nat := s.i.toNat + k

/-- Bnnn's target `V[0] + nnn`, a natural (R84, R123). -/
def jumpOffsetTarget (s : State) (nnn : Addr) : Nat := (s.reg 0).toNat + nnn.toNat

/-- Fx29's address `V[x] * 5` (R84, R173): at most 1275, so that it fits `I`. -/
def glyphAddr (s : State) (x : Reg) : Addr := BitVec.ofNat 12 ((s.reg x).toNat * 5)

/-- The successor of a skip: past the next word when the skip is taken (R124). -/
def skipTarget (taken : Bool) (s : State) : Nat := if taken then s.pcSeq + 2 else s.pcSeq

/-- The decimal digits of Fx33: hundreds, tens and ones (R174). -/
def bcdHundreds (b : Byte) : Byte := BitVec.ofNat 8 (b.toNat / 100)

/-- See `bcdHundreds`. -/
def bcdTens (b : Byte) : Byte := BitVec.ofNat 8 (b.toNat / 10 % 10)

/-- See `bcdHundreds`. -/
def bcdOnes (b : Byte) : Byte := BitVec.ofNat 8 (b.toNat % 10)

end Sys2Proof.Machine
end

