-- ==== Sys2Proof/Machine/Cycle.lean ====
section
/-! DEFINITION. The steps of one cycle around the instruction (spec/40_cycle.md R100 to R108) and its result, for
`step` to call. -/

namespace Sys2Proof.Machine

/-- The inputs of this activation: the oldest of the script, or free values where the script is empty (R51, R52, R53;
log 1). -/
def currentInput (s : State) : CycleInput :=
  match s.inputs with
  | c :: _ => c
  | [] => { keys := Config.freeKeys s.activations, tick := Config.freeTick s.activations,
            rnd := Config.freeRnd s.activations }

/-- The activation's inputs are used up, whatever the cycle does with them (log 1). -/
def consumeInput (s : State) : State :=
  { s with inputs := s.inputs.tail, activations := s.activations + 1 }

/-- Step 1 (R101): `KEYPAD <- keys; DIRTY <- false; TICK_PENDING <- TICK_PENDING or tick`; the `rnd` port's byte stands
for Cxkk to read (R52). -/
def sampleInput (c : CycleInput) (s : State) : State :=
  { s with keypad := c.keys, dirty := false, tickPending := s.tickPending || c.tick, rnd := c.rnd }

/-- The state an activation's instruction begins in: `S0` of R110. -/
def beginCycle (s : State) : State := sampleInput (currentInput s) (consumeInput s)

/-- One count of a timer, clamped at 0 (R107). -/
def countDown (t : Byte) : Byte := if t.toNat > 0 then BitVec.ofNat 8 (t.toNat - 1) else t

/-- Step 4 (R107). -/
def timerStep (s : State) : State :=
  if s.tickPending then { s with dt := countDown s.dt, st := countDown s.st, tickPending := false } else s

/-- The least pressed key (R102). -/
def lowestKey (s : State) : Option Nat := (List.range 16).find? (fun k => s.keyDown k)

/-- Step 2 (R102, R103): a pressed key ends the wait and the cycle goes on with step 4; with none the cycle ends at
once, without step 4. -/
def awaitStep (d : Reg) (s : State) : State :=
  match lowestKey s with
  | some k => timerStep ((s.setReg d (BitVec.ofNat 8 k)).setAwait .running)
  | none => s

/-- The word at the pc, the byte at the lower address on the more significant side (R62, R104). -/
def fetchWord (s : State) : Opcode := wordOfBytes (s.readByte s.pc.toNat) (s.readByte (s.pc.toNat + 1))

/-- Step 3's fetch and decode (R104, R105, R229): the instruction, or the fault with the opcode it records. -/
def fetchInstr (s : State) : Except (Raise × Option Opcode) Instr :=
  if s.pc.toNat + 1 > Config.maxAddr then .error (raiseAddress (Config.maxAddr + 1), none)
  else
    match decode (fetchWord s) with
    | .ok i => .ok i
    | .error _ => .error (raiseDecodeFailure, some (fetchWord s))

/-- The rest of the cycle after the instruction: step 4, which a fault skips (R106, R107, R226). -/
def endCycle (s : State) : State := if s.fault.isSome then s else timerStep s

/-- The cycle's outcome from the instruction's. -/
def finishCycle : Result → Result
  | .next t => .next (endCycle t)
  | .fault f => .fault f
  | .refused r => .refused r

/-- The outputs of `advance_cycle` (R54). -/
structure CycleResult where
  vramDirty : Bool
  shouldBeep : Bool
  fault : Option Cause
  deriving DecidableEq, Repr

/-- The result of the cycle that left the state (R54, R100, R103, R108, R227; log 6). -/
def cycleResult (s : State) : CycleResult :=
  match s.fault with
  | some r => { vramDirty := false, shouldBeep := false, fault := some r.cause }
  | none => { vramDirty := s.dirty, shouldBeep := decide (s.st.toNat > 0), fault := none }

/-- Byte `b` at the address, if the memory array has the address. -/
def placeByte (a : Nat) (b : Byte) (s : State) : State :=
  if a ≤ Config.maxAddr then s.writeByte a b else s

/-- The two bytes of a word at the pc, big-endian (R62). -/
def placeWord (op : Opcode) (s : State) : State :=
  placeByte (s.pc.toNat + 1) (op.extractLsb' 0 8) (placeByte s.pc.toNat (op.extractLsb' 8 8) s)

end Sys2Proof.Machine
end

