-- ==== Sys2Proof/Machine/Flags.lean ====
section
/-! DEFINITION. The flag computations, each a value for VF (spec/10_state.md R22, R23). -/

namespace Sys2Proof.Machine

/-- A flag as the byte VF receives. -/
def flagByte (b : Bool) : Byte := if b then 1 else 0

/-- Carry out of bit 7 of the exact sum (R146). -/
def carry8 (sum : Nat) : Byte := flagByte (decide (sum > 255))

/-- Carry out of bit 11 of the exact sum (R172). -/
def carry12 (sum : Nat) : Byte := flagByte (decide (sum > 4095))

/-- No borrow: the minuend is at least the subtrahend (R147, R149). -/
def noBorrow (a b : Byte) : Byte := flagByte (decide (a.toNat ≥ b.toNat))

/-- The bit a right shift moves out, bit 0 (R148). -/
def shiftedOutRight (a : Byte) : Byte := BitVec.ofNat 8 (a.toNat % 2)

/-- The bit a left shift moves out, bit 7 (R150). -/
def shiftedOutLeft (a : Byte) : Byte := BitVec.ofNat 8 (a.toNat / 128 % 2)

/-- `V[0xF] <- b`. -/
def State.setVf (s : State) (b : Byte) : State := s.setReg Config.vf b

end Sys2Proof.Machine
end

