-- ==== Sys2Proof/Machine/Alu.lean ====
section
/-! DEFINITION. Register loads and the 8-bit ALU (spec/42_alu.md). The two writes of a flag-setting instruction stand
in the order of its rule (spec/00_scope.md R13; log 19), which decides the result when x = F. -/

namespace Sys2Proof.Machine

/-- `LD Vx, kk` (R140). -/
def execLdImm (x : Reg) (kk : Byte) (s : State) : Result :=
  complete (.ldImm x kk) s (setPc s.pcSeq (s.setReg x kk))

/-- `ADD Vx, kk` (R141): no flag. -/
def execAddImm (x : Reg) (kk : Byte) (s : State) : Result :=
  complete (.addImm x kk) s (setPc s.pcSeq (s.setReg x (BitVec.ofNat 8 ((s.reg x).toNat + kk.toNat))))

/-- `LD Vx, Vy` (R142). -/
def execLdReg (x y : Reg) (s : State) : Result :=
  complete (.ldReg x y) s (setPc s.pcSeq (s.setReg x (s.reg y)))

/-- `OR Vx, Vy` (R143): no flag. -/
def execOrReg (x y : Reg) (s : State) : Result :=
  complete (.orReg x y) s (setPc s.pcSeq (s.setReg x (s.reg x ||| s.reg y)))

/-- `AND Vx, Vy` (R144): no flag. -/
def execAndReg (x y : Reg) (s : State) : Result :=
  complete (.andReg x y) s (setPc s.pcSeq (s.setReg x (s.reg x &&& s.reg y)))

/-- `XOR Vx, Vy` (R145): no flag. -/
def execXorReg (x y : Reg) (s : State) : Result :=
  complete (.xorReg x y) s (setPc s.pcSeq (s.setReg x (s.reg x ^^^ s.reg y)))

/-- `ADD Vx, Vy` (R146): the sum, then the carry. -/
def execAddReg (x y : Reg) (s : State) : Result :=
  let sum := (s.reg x).toNat + (s.reg y).toNat
  complete (.addReg x y) s (setPc s.pcSeq ((s.setReg x (BitVec.ofNat 8 sum)).setVf (carry8 sum)))

/-- `SUB Vx, Vy` (R147): the difference, then the flag of the old values. -/
def execSubReg (x y : Reg) (s : State) : Result :=
  let a := s.reg x
  let b := s.reg y
  complete (.subReg x y) s
    (setPc s.pcSeq ((s.setReg x (BitVec.ofNat 8 (a.toNat + 256 - b.toNat))).setVf (noBorrow a b)))

/-- `SHR Vx` (R148): the flag, then the shift of what Vx holds after it; Vy is not read (R96). -/
def execShr (x y : Reg) (s : State) : Result :=
  let t := s.setVf (shiftedOutRight (s.reg x))
  complete (.shr x y) s (setPc s.pcSeq (t.setReg x (BitVec.ofNat 8 ((t.reg x).toNat / 2))))

/-- `SUBN Vx, Vy` (R149): the difference, then the flag of the old values. -/
def execSubnReg (x y : Reg) (s : State) : Result :=
  let a := s.reg x
  let b := s.reg y
  complete (.subnReg x y) s
    (setPc s.pcSeq ((s.setReg x (BitVec.ofNat 8 (b.toNat + 256 - a.toNat))).setVf (noBorrow b a)))

/-- `SHL Vx` (R150): the flag, then the shift of what Vx holds after it; Vy is not read (R96). -/
def execShl (x y : Reg) (s : State) : Result :=
  let t := s.setVf (shiftedOutLeft (s.reg x))
  complete (.shl x y) s (setPc s.pcSeq (t.setReg x (BitVec.ofNat 8 ((t.reg x).toNat * 2))))

/-- `RND Vx, kk` (R152): the byte is this cycle's `rnd` input. -/
def execRnd (x : Reg) (kk : Byte) (s : State) : Result :=
  complete (.rnd x kk) s (setPc s.pcSeq (s.setReg x (s.rnd &&& kk)))

end Sys2Proof.Machine
end

