-- ==== Sys2Proof/Machine/Display.lean ====
section
/-! DEFINITION. The framebuffer, the sprite XOR and the collision detector (spec/44_display.md). -/

namespace Sys2Proof.Machine

/-- Every cell 0 (R190). -/
def clearScreen : Framebuffer := Vector.replicate 32 0

/-- `CLS` (R190). -/
def execCls (s : State) : Result :=
  complete .cls s (setPc s.pcSeq (s.setFb clearScreen).markDirty)

/-- The sprite bit at offset `b` from the left: bit `7 - b` of the row's byte (R191, R194; log 18). -/
def spriteBit (row : Byte) (b : Nat) : Bool := row.getLsbD (7 - b)

/-- The framebuffer and the collision bit while a sprite is drawn (R191). -/
structure Canvas where
  fb : Framebuffer
  collision : Bool
  deriving DecidableEq, Repr

/-- The column of offset `b` of a sprite at column `cx` (R193). -/
def spriteCol (cx b : Nat) : Fin 64 := ⟨(cx + b) % 64, by omega⟩

/-- The screen row of sprite row `r` of a sprite at row `cy` (R193). -/
def spriteRow (cy r : Nat) : Fin 32 := ⟨(cy + r) % 32, by omega⟩

/-- One pixel of the loop of R191. -/
def drawBit (cx cy r : Nat) (row : Byte) (c : Canvas) (b : Nat) : Canvas :=
  if spriteBit row b then
    { fb := flipPixel c.fb (spriteRow cy r) (spriteCol cx b),
      collision := c.collision || pixel c.fb (spriteRow cy r) (spriteCol cx b) }
  else c

/-- One sprite row: its eight bits from the left (R191). -/
def drawRow (cx cy r : Nat) (row : Byte) (c : Canvas) : Canvas :=
  (List.range 8).foldl (drawBit cx cy r row) c

/-- The first `n` sprite rows from the byte at `I` (R191). -/
def drawRows (s : State) (cx cy n : Nat) (c : Canvas) : Canvas :=
  (List.range n).foldl (fun c r => drawRow cx cy r (s.readByte (effectiveAddr s r)) c) c

/-- `DRW Vx, Vy, n` (R191): the coordinates are read before VF is written. -/
def execDrw (x y : Reg) (n : Nibble) (s : State) : Result :=
  let c := drawRows s (s.reg x).toNat (s.reg y).toNat n.toNat ⟨s.fb, false⟩
  complete (.drw x y n) s
    (rangeCheck s.i.toNat n.toNat
      (setPc s.pcSeq ((s.setFb c.fb).setVf (flagByte c.collision)).markDirty))

end Sys2Proof.Machine
end

