-- ==== Sys2Proof/Machine/Flow.lean ====
section
/-! DEFINITION. Control transfer and skips (spec/41_flow.md). -/

namespace Sys2Proof.Machine

/-- `JP nnn` (R120). -/
def execJp (nnn : Addr) (s : State) : Result :=
  complete (.jp nnn) s (setPc nnn.toNat s)

/-- `RET` (R121). -/
def execRet (s : State) : Result :=
  complete .ret s
    (if h : 0 < s.sp.val then setPc (topReturn s h).toNat (dropReturn s)
     else .error raiseStackUnderflow)

/-- `CALL nnn` (R122): the stack is checked before the return address (R229). -/
def execCall (nnn : Addr) (s : State) : Result :=
  complete (.call nnn) s
    (if h : s.sp.val < 16 then
       if s.pcSeq > Config.maxAddr then .error (raisePc s.pcSeq)
       else setPc nnn.toNat (pushReturn (BitVec.ofNat 12 s.pcSeq) s h)
     else .error raiseStackOverflow)

/-- `JP V0, nnn` (R123). -/
def execJpV0 (nnn : Addr) (s : State) : Result :=
  complete (.jpV0 nnn) s (setPc (jumpOffsetTarget s nnn) s)

/-- `SE Vx, kk` (R124). -/
def execSeImm (x : Reg) (kk : Byte) (s : State) : Result :=
  complete (.seImm x kk) s (setPc (skipTarget (s.reg x == kk) s) s)

/-- `SNE Vx, kk` (R125). -/
def execSneImm (x : Reg) (kk : Byte) (s : State) : Result :=
  complete (.sneImm x kk) s (setPc (skipTarget (s.reg x != kk) s) s)

/-- `SE Vx, Vy` (R126). -/
def execSeReg (x y : Reg) (s : State) : Result :=
  complete (.seReg x y) s (setPc (skipTarget (s.reg x == s.reg y) s) s)

/-- `SNE Vx, Vy` (R127). -/
def execSneReg (x y : Reg) (s : State) : Result :=
  complete (.sneReg x y) s (setPc (skipTarget (s.reg x != s.reg y) s) s)

end Sys2Proof.Machine
end

