-- ==== Sys2Proof/Machine/Index.lean ====
section
/-! DEFINITION. The index register and memory transfers (spec/43_index_memory.md). -/

namespace Sys2Proof.Machine

/-- `LD I, nnn` (R170). -/
def execLdI (nnn : Addr) (s : State) : Result :=
  complete (.ldI nnn) s (setPc s.pcSeq (s.setI nnn))

/-- `ADD I, Vx` (R172): the sum mod 4096, then the carry. -/
def execAddI (x : Reg) (s : State) : Result :=
  let sum := s.i.toNat + (s.reg x).toNat
  complete (.addI x) s (setPc s.pcSeq ((s.setI (BitVec.ofNat 12 sum)).setVf (carry12 sum)))

/-- `LD F, Vx` (R173). -/
def execLdF (x : Reg) (s : State) : Result :=
  complete (.ldF x) s (setPc s.pcSeq (s.setI (glyphAddr s x)))

/-- The three stores of Fx33 (R174). -/
def storeBcd (b : Byte) (s : State) : State :=
  ((s.writeByte (effectiveAddr s 0) (bcdHundreds b)).writeByte (effectiveAddr s 1) (bcdTens b)).writeByte
    (effectiveAddr s 2) (bcdOnes b)

/-- `LD B, Vx` (R174). -/
def execLdB (x : Reg) (s : State) : Result :=
  complete (.ldB x) s (rangeCheck s.i.toNat 3 (setPc s.pcSeq (storeBcd (s.reg x) s)))

/-- The stores of Fx55: register `k` to `I + k`, for `k` below `n`, in ascending order (R175). -/
def storeRegs (n : Nat) (s : State) : State :=
  (List.range n).foldl (fun t k => t.writeByte (effectiveAddr t k) (t.reg (regOfIndex k))) s

/-- `LD [I], Vx` (R175). -/
def execLdMemVx (x : Reg) (s : State) : Result :=
  complete (.ldMemVx x) s (rangeCheck s.i.toNat (x.toNat + 1) (setPc s.pcSeq (storeRegs (x.toNat + 1) s)))

/-- The loads of Fx65: byte `I + k` to register `k`, for `k` below `n`, in ascending order (R176). -/
def loadRegs (n : Nat) (s : State) : State :=
  (List.range n).foldl (fun t k => t.setReg (regOfIndex k) (t.readByte (effectiveAddr t k))) s

/-- `LD Vx, [I]` (R176). -/
def execLdVxMem (x : Reg) (s : State) : Result :=
  complete (.ldVxMem x) s (rangeCheck s.i.toNat (x.toNat + 1) (setPc s.pcSeq (loadRegs (x.toNat + 1) s)))

end Sys2Proof.Machine
end

