-- ==== Sys2Proof/Machine/Keypad.lean ====
section
/-! DEFINITION. Keypad tests, the await-key instruction and the timer transfers (spec/45_keypad_timers.md). -/

namespace Sys2Proof.Machine

/-- The key index in `V[x]` must be a key's (R200, R228) before the rest of the rule. -/
def keyCheck (k : Nat) (r : Except Raise State) : Except Raise State :=
  if k > 15 then .error (raiseKeyIndex k) else r

/-- `SKP Vx` (R200). -/
def execSkp (x : Reg) (s : State) : Result :=
  let k := (s.reg x).toNat
  complete (.skp x) s (keyCheck k (setPc (skipTarget (s.keyDown k) s) s))

/-- `SKNP Vx` (R201). -/
def execSknp (x : Reg) (s : State) : Result :=
  let k := (s.reg x).toNat
  complete (.sknp x) s (keyCheck k (setPc (skipTarget (!s.keyDown k) s) s))

/-- `LD Vx, DT` (R202). -/
def execLdVxDt (x : Reg) (s : State) : Result :=
  complete (.ldVxDt x) s (setPc s.pcSeq (s.setReg x s.dt))

/-- `LD Vx, K` (R203): enters the await-keypad state; the scan is the next cycles'. -/
def execLdVxK (x : Reg) (s : State) : Result :=
  complete (.ldVxK x) s (setPc s.pcSeq (s.setAwait (.awaitingKey x)))

/-- `LD DT, Vx` (R204). -/
def execLdDtVx (x : Reg) (s : State) : Result :=
  complete (.ldDtVx x) s (setPc s.pcSeq (s.setDt (s.reg x)))

/-- `LD ST, Vx` (R205). -/
def execLdStVx (x : Reg) (s : State) : Result :=
  complete (.ldStVx x) s (setPc s.pcSeq (s.setSt (s.reg x)))

end Sys2Proof.Machine
end

