-- ==== Sys2Proof/Machine/Step.lean ====
section
/-! DEFINITION. One activation of the CORE: `advance_cycle` of spec/40_cycle.md R110. -/

namespace Sys2Proof.Machine

/-- One cycle (R110): a halted core changes nothing (R100); step 1 (R101); the await scan (R102, R103) in place of
step 3 (R104 to R106); step 4 (R107). -/
def step (s : State) : Host.Outcome State Fault Refusal :=
  if s.fault.isSome then .next (consumeInput s)
  else
    let s0 := beginCycle s
    match s0.await with
    | .awaitingKey d => .next (awaitStep d s0)
    | .running =>
      match fetchInstr s0 with
      | .error (r, opcode) => .next (takeFault r opcode s0)
      | .ok i => finishCycle (exec i s0)

/-- The state with a table row's word where the next step fetches (log 7): at the pc, the core neither halted nor
awaiting a key, since then a step does not fetch. At pc = 0xFFF no word can stand, and the fetch faults (R104). -/
def State.withFetchWord (s : State) (nbits w : Nat) : State :=
  placeWord (tableWord nbits w) { s with fault := none, await := .running }

end Sys2Proof.Machine
end

