-- ==== Sys2Proof/Machine/HostOps.lean ====
section
/-! DEFINITION. The host's other operations and ports (spec/10_state.md R50, R55, R56; spec/70_reset_and_hazards.md
R250, R252). -/

namespace Sys2Proof.Machine

/-- The error of `load_rom` (R233): no fault of the core. -/
inductive HostError where
  /-- `RomTooLarge`: more than 3584 bytes. -/
  | romTooLarge
  deriving DecidableEq, Repr

/-- Bytes stored at consecutive addresses from `a`. -/
def storeBytes : Nat → List Byte → State → State
  | _, [], s => s
  | a, b :: bs, s => storeBytes (a + 1) bs (s.writeByte a b)

/-- `load_rom(bytes)` (R56, R233, R252): a ROM that does not fit is rejected with no change. -/
def loadRom (bytes : List Byte) (s : State) : Except HostError State :=
  if wellFormedRom bytes then .ok (storeBytes Config.romBase bytes s) else .error .romTooLarge

/-- The host's `reset` during a run (R56, R250), the one way out of a halt (R230): every state element of the spec at
its reset value. The parameter FONT and the host's own inputs are no state of the spec and stay (log 26). -/
def State.hostReset (s : State) : State :=
  { State.reset with font := s.font, inputs := s.inputs, activations := s.activations, rnd := s.rnd }

/-- The host presents inputs for the next activation: `step (s.present c)` is `advance_cycle` with them (R50; log 1). -/
def State.present (s : State) (c : CycleInput) : State := { s with inputs := c :: s.inputs }

/-- The framebuffer read port: cell `n = row * 64 + col` as the byte 0 or 1, 0 outside the 2048 cells (R32, R55). -/
def fbPort (s : State) (n : Nat) : Byte :=
  if h : n < 2048 then flagByte (pixel s.fb ⟨n / 64, by omega⟩ ⟨n % 64, by omega⟩) else 0

end Sys2Proof.Machine
end

