-- ==== Sys2Proof/Safety.lean ====
section
/-! DEFINITION. The terms that claims use: the ends of a run (spec/70_reset_and_hazards.md R260), safe runs, the
invariant, frames, and the conditions of the faults. -/

namespace Sys2Proof.Machine

/-- `halted` (R45, R260). -/
def halted (s : State) : Bool := s.fault.isSome

/-- `awaiting` (R260). -/
def awaiting (s : State) : Bool := decide (s.await ≠ .running)

/-- `self_loop` (R260): running, not halted, and the word at the pc jumps to the pc itself. -/
def selfLoop (s : State) : Bool :=
  decide (s.await = .running) && !halted s && decide (s.pc.toNat + 1 ≤ Config.maxAddr)
    && decide (decode (fetchWord s) = .ok (.jp s.pc))

/-- `k` cycles from `s` never halt the core. -/
def safeFor : Nat → State → Prop
  | 0, s => s.fault = none
  | k + 1, s => s.fault = none ∧ ∃ t, step s = .next t ∧ safeFor k t

/-- The value a record keeps is the one R220 gives its cause (R238 for the address), and the opcode is absent exactly
for a fault of the fetch, which only the address 0xFFF can raise (R44, R224). -/
def FaultRecord.consistent (r : FaultRecord) : Prop :=
  (r.opcode = none ↔ r.ia = 0xFFF#12) ∧ (r.opcode = none → r.cause = .addressOutOfRange) ∧
  match r.cause with
  | .decodeFailure => r.info = none
  | .stackOverflow => r.info = none
  | .stackUnderflow => r.info = none
  | .addressOutOfRange => r.info = some 0x1000
  | .pcOutOfRange => ∃ a, r.info = some a ∧ 0x1000 ≤ a ∧ a ≤ 0x10FE
  | .keyIndexOutOfRange => ∃ k, r.info = some k ∧ 16 ≤ k ∧ k ≤ 255

/-- The invariant of the machine. -/
structure Inv (s : State) : Prop where
  /-- The memory keeps its canonical form. -/
  memory : Memory.wf s.font s.mem = true
  /-- A halted core stands at the instruction that faulted, running and with nothing drawn in that cycle (R226). -/
  fault : ∀ r, s.fault = some r → r.consistent ∧ r.ia = s.pc ∧ s.await = .running ∧ s.dirty = false
  /-- No cycle that leaves the core awaiting a key has drawn (R103, R203). -/
  await : s.await ≠ .running → s.dirty = false

/-- The parts of the state besides the general registers. -/
inductive Part where
  | pc | index | stack | delay | sound | memory | screen | dirty | await | keypad | tick | fault | inputs | font
  deriving DecidableEq, Repr

/-- The part is the same in both states; memory is compared by reading every address, the screen by every pixel. -/
def Unchanged (s t : State) : Part → Prop
  | .pc => t.pc = s.pc
  | .index => t.i = s.i
  | .stack => t.sp = s.sp ∧ t.stack = s.stack
  | .delay => t.dt = s.dt
  | .sound => t.st = s.st
  | .memory => ∀ a, t.readByte a = s.readByte a
  | .screen => ∀ row col, pixel t.fb row col = pixel s.fb row col
  | .dirty => t.dirty = s.dirty
  | .await => t.await = s.await
  | .keypad => t.keypad = s.keypad
  | .tick => t.tickPending = s.tickPending
  | .fault => t.fault = s.fault
  | .inputs => t.inputs = s.inputs ∧ t.activations = s.activations ∧ t.rnd = s.rnd
  | .font => t.font = s.font

/-- FRAME: of the general registers only those of `ws` may differ, and of the other parts only those of `ps`. -/
def Frame (ws : List Reg) (ps : List Part) (s t : State) : Prop :=
  (∀ r, r ∉ ws → t.reg r = s.reg r) ∧ ∀ p, p ∉ ps → Unchanged s t p

/-- Every byte outside the `n` bytes from `base` reads as before. -/
def SameMemoryOutside (base n : Nat) (s t : State) : Prop :=
  ∀ a, a < base ∨ base + n ≤ a → t.readByte a = s.readByte a

/-- The state is `s` with this fault taken at its pc by the instruction (R226), and nothing else changed. -/
def Faulted (i : Instr) (c : Cause) (info : Option Nat) (s t : State) : Prop :=
  t.fault = some ⟨c, s.pc, some (encode i), info⟩ ∧ Frame [] [.fault] s t

/-- The general registers an instruction may write: its destination, and VF for those of R22. -/
def destRegs : Instr → List Reg
  | .ldImm x _ | .addImm x _ | .ldReg x _ | .orReg x _ | .andReg x _ | .xorReg x _ | .rnd x _ | .ldVxDt x => [x]
  | .addReg x _ | .subReg x _ | .shr x _ | .subnReg x _ | .shl x _ => [x, Config.vf]
  | .drw _ _ _ | .addI _ => [Config.vf]
  | .ldVxMem x => (List.range (x.toNat + 1)).map regOfIndex
  | .cls | .ret | .jp _ | .call _ | .seImm _ _ | .sneImm _ _ | .seReg _ _ | .sneReg _ _ | .ldI _ | .jpV0 _ | .skp _
  | .sknp _ | .ldVxK _ | .ldDtVx _ | .ldStVx _ | .ldF _ | .ldB _ | .ldMemVx _ => []

/-- The other parts an instruction may write when it does not fault: the pc always, and what its rule names. -/
def destParts : Instr → List Part
  | .ret | .call _ => [.pc, .stack]
  | .ldI _ | .addI _ | .ldF _ => [.pc, .index]
  | .ldDtVx _ => [.pc, .delay]
  | .ldStVx _ => [.pc, .sound]
  | .ldVxK _ => [.pc, .await]
  | .ldB _ | .ldMemVx _ => [.pc, .memory]
  | .cls | .drw _ _ _ => [.pc, .screen, .dirty]
  | .jp _ | .seImm _ _ | .sneImm _ _ | .seReg _ _ | .sneReg _ _ | .jpV0 _ | .skp _ | .sknp _ | .ldImm _ _ | .addImm _ _
  | .ldReg _ _ | .orReg _ _ | .andReg _ _ | .xorReg _ _ | .addReg _ _ | .subReg _ _ | .shr _ _ | .subnReg _ _ | .shl _ _
  | .rnd _ _ | .ldVxDt _ | .ldVxMem _ => [.pc]

/-- How many bytes an instruction stores, from the address `I` on: Fx33 three (R174), Fx55 `x + 1` (R175), the others
none. -/
def storedBytes : Instr → Nat
  | .ldB _ => 3
  | .ldMemVx x => x.toNat + 1
  | .cls | .ret | .jp _ | .call _ | .seImm _ _ | .sneImm _ _ | .seReg _ _ | .ldImm _ _ | .addImm _ _ | .ldReg _ _
  | .orReg _ _ | .andReg _ _ | .xorReg _ _ | .addReg _ _ | .subReg _ _ | .shr _ _ | .subnReg _ _ | .shl _ _ | .sneReg _ _
  | .ldI _ | .jpV0 _ | .rnd _ _ | .drw _ _ _ | .skp _ | .sknp _ | .ldVxDt _ | .ldVxK _ | .ldDtVx _ | .ldStVx _ | .addI _
  | .ldF _ | .ldVxMem _ => 0

/-- A skip is taken: the condition of R124 to R127, R200 and R201; no other instruction skips. -/
def skipTaken : Instr → State → Bool
  | .seImm x kk, s => decide (s.reg x = kk)
  | .sneImm x kk, s => decide (s.reg x ≠ kk)
  | .seReg x y, s => decide (s.reg x = s.reg y)
  | .sneReg x y, s => decide (s.reg x ≠ s.reg y)
  | .skp x, s => s.keyDown (s.reg x).toNat
  | .sknp x, s => !s.keyDown (s.reg x).toNat
  | .cls, _ | .ret, _ | .jp _, _ | .call _, _ | .ldImm _ _, _ | .addImm _ _, _ | .ldReg _ _, _ | .orReg _ _, _
  | .andReg _ _, _ | .xorReg _ _, _ | .addReg _ _, _ | .subReg _ _, _ | .shr _ _, _ | .subnReg _ _, _ | .shl _ _, _
  | .ldI _, _ | .jpV0 _, _ | .rnd _ _, _ | .drw _ _ _, _ | .ldVxDt _, _ | .ldVxK _, _ | .ldDtVx _, _ | .ldStVx _, _
  | .addI _, _ | .ldF _, _ | .ldB _, _ | .ldMemVx _, _ | .ldVxMem _, _ => false

/-- The address of the next instruction, or of the one after it when a skip is taken, as a natural: the value R225
checks of every instruction but 1nnn, 00EE and Bnnn (of 2nnn it is the return address). -/
def successor (i : Instr) (s : State) : Nat := s.pc.toNat + if skipTaken i s then 4 else 2

/-- The condition under which the instruction's rule raises the cause, and the value the record keeps of it (R222 to
R225, R228, R238). DecodeFailure is no instruction's: it is raised before there is one (R221). -/
def FaultCondition (i : Instr) (s : State) (c : Cause) (info : Option Nat) : Prop :=
  match c with
  | .decodeFailure => False
  | .stackOverflow => (∃ nnn, i = .call nnn) ∧ s.sp = 16 ∧ info = none
  | .stackUnderflow => i = .ret ∧ s.sp = 0 ∧ info = none
  | .addressOutOfRange =>
    ((∃ x y n, i = .drw x y n ∧ n ≠ 0 ∧ s.i.toNat + n.toNat - 1 > 0xFFF) ∨
      (∃ x, i = .ldB x ∧ s.i.toNat + 2 > 0xFFF) ∨
      (∃ x, i = .ldMemVx x ∧ s.i.toNat + x.toNat > 0xFFF) ∨
      ∃ x, i = .ldVxMem x ∧ s.i.toNat + x.toNat > 0xFFF) ∧ info = some 0x1000
  | .pcOutOfRange =>
    (∃ nnn, i = .jpV0 nnn ∧ (s.reg 0).toNat + nnn.toNat > 0xFFF ∧ info = some ((s.reg 0).toNat + nnn.toNat)) ∨
      (i ≠ .ret ∧ (∀ nnn, i ≠ .jp nnn) ∧ (∀ nnn, i ≠ .jpV0 nnn) ∧ successor i s > 0xFFF ∧ info = some (successor i s))
  | .keyIndexOutOfRange =>
    ∃ x, (i = .skp x ∨ i = .sknp x) ∧ (s.reg x).toNat > 15 ∧ info = some (s.reg x).toNat

end Sys2Proof.Machine
end

