-- ==== Sys2Proof/Certificates/Slice0/Obligations.lean ====
section
/-! DEFINITION. The statements for the provers. Each docstring names the rule of spec/ it formalises; where a rule of
spec/ is marked there as the spec's own decision D<n> (spec/92_eei_decisions.md) or as derived, the docstring says so
and names the log entry, and the statement's basis is 'derived'. -/

open Sys2Proof Sys2Proof.Machine

/-! ### Decoding and encoding -/

/-- R83, R85, R98: the decoder gives back every instruction from its word, with every operand at every value. -/
def Obligations.DecodeOfEncode : Prop :=
  ∀ i : Instr, decode (encode i) = .ok i

/-- R83, R98: each instruction stands for exactly one word: no two words decode to one instruction. -/
def Obligations.EncodeOfDecode : Prop :=
  ∀ (op : Opcode) (i : Instr), decode op = .ok i → encode i = op

/-- R88, R89, R90: the decode failures of families 5, 9, 8, E and F, and only those. -/
def Obligations.DecodeFailuresOfSubvariantFamilies : Prop :=
  ∀ op : Opcode,
    let family := op.toNat / 4096
    let n := op.toNat % 16
    let low := op.toNat % 256
    ((family = 5 ∨ family = 9) → (decode op = .error (.decodeFailure op) ↔ n ≠ 0)) ∧
    (family = 8 → (decode op = .error (.decodeFailure op) ↔ n ∈ [0x8, 0x9, 0xA, 0xB, 0xC, 0xD, 0xF])) ∧
    (family = 0xE → (decode op = .error (.decodeFailure op) ↔ low ∉ [0x9E, 0xA1])) ∧
    (family = 0xF → (decode op = .error (.decodeFailure op) ↔
      low ∉ [0x07, 0x0A, 0x15, 0x18, 0x1E, 0x29, 0x33, 0x55, 0x65]))

/-- R87 (decision D13; log 9) and R91 (derived): family 0 has exactly the two words 00E0 and 00EE, and a word is
refused exactly when it lies in the decode-failure space. -/
def Obligations.DecodeFailureSpace : Prop :=
  (∀ op : Opcode, op.toNat < 4096 →
    ((∃ i, decode op = .ok i) ↔ op = 0x00E0#16 ∨ op = 0x00EE#16)) ∧
  ∀ op : Opcode, (wellFormedWord op = true ∧ ∃ i, decode op = .ok i) ∨
    (wellFormedWord op = false ∧ decode op = .error (.decodeFailure op))

/-- R85, R86 ("at most one row matches any opcode" is derived): a word decodes to an instruction of exactly that row
of the opcode map which it matches. -/
def Obligations.DecodeFollowsOpcodeMap : Prop :=
  (∀ (op : Opcode) (i : Instr), decode op = .ok i → matchesRow op i = true) ∧
  ∀ (op : Opcode) (j : Instr), matchesRow op j = true →
    ∃ i, decode op = .ok i ∧ opcodeRow i = opcodeRow j

/-- Words of spec/95_test_vectors.md, one or more of each family, decode to what their listings say. -/
def Obligations.SampleWordsDecode : Prop :=
  decode 0x00E0#16 = .ok .cls ∧ decode 0x00EE#16 = .ok .ret ∧ decode 0x2300#16 = .ok (.call 0x300) ∧
  decode 0x3012#16 = .ok (.seImm 0 0x12) ∧ decode 0x9010#16 = .ok (.sneReg 0 1) ∧
  decode 0x6A5C#16 = .ok (.ldImm 0xA 0x5C) ∧ decode 0x8126#16 = .ok (.shr 1 2) ∧
  decode 0xA123#16 = .ok (.ldI 0x123) ∧ decode 0xC00F#16 = .ok (.rnd 0 0x0F) ∧
  decode 0xD015#16 = .ok (.drw 0 1 5) ∧ decode 0xE09E#16 = .ok (.skp 0) ∧ decode 0xF265#16 = .ok (.ldVxMem 2) ∧
  decode 0x0123#16 = .error (.decodeFailure 0x0123#16)

/-! ### The cycle -/

/-- R104, R106, R110 (R104 and R106 rest on decisions D5 and D9): in a core that is neither halted nor awaiting a key,
the bytes at the pc, the lower address first, are the word that runs: the step is the instruction's effect on the
state after step 1, followed by the end of the cycle. -/
def Obligations.StepRunsDecodedInstruction : Prop :=
  ∀ (s : State) (i : Instr), s.fault = none → s.await = .running → s.pc.toNat + 1 ≤ 0xFFF →
    decode (s.readByte s.pc.toNat ++ s.readByte (s.pc.toNat + 1)) = .ok i →
    step s = finishCycle (exec i (beginCycle s))

/-- R101 (decision D2 for the tick; logs 1, 2, 15): the state an instruction begins in holds this activation's keys,
DIRTY false and the latched tick; nothing else of the state has changed. -/
def Obligations.CycleBeginsBySampling : Prop :=
  ∀ (s : State) (c : CycleInput) (rest : List CycleInput), s.inputs = c :: rest →
    (beginCycle s).keypad = c.keys ∧ (beginCycle s).dirty = false ∧
    (beginCycle s).tickPending = (s.tickPending || c.tick) ∧ (beginCycle s).rnd = c.rnd ∧
    (beginCycle s).inputs = rest ∧
    Frame [] [.keypad, .dirty, .tick, .inputs] s (beginCycle s)

/-- R107 (decisions D2, D20; log 15): after an instruction that did not fault, a pending tick takes one from each timer
that is not 0 and is used up; with no tick pending nothing changes. -/
def Obligations.TimersCountDownOncePerTick : Prop :=
  ∀ (s t : State) (i : Instr), s.fault = none → s.await = .running → s.pc.toNat + 1 ≤ 0xFFF →
    decode (s.readByte s.pc.toNat ++ s.readByte (s.pc.toNat + 1)) = .ok i →
    exec i (beginCycle s) = .next t → t.fault = none →
    ∃ u, step s = .next u ∧ u.tickPending = false ∧
      u.dt.toNat = (if t.tickPending then t.dt.toNat - 1 else t.dt.toNat) ∧
      u.st.toNat = (if t.tickPending then t.st.toNat - 1 else t.st.toNat) ∧
      Frame [] [.tick, .delay, .sound] t u

/-- R104, R224 (decision D4; log 10) and R226 (D9; log 14): a fetch at 0xFFF faults, and the record has no opcode. -/
def Obligations.FetchAtTopFaults : Prop :=
  ∀ s : State, s.fault = none → s.await = .running → s.pc = 0xFFF#12 →
    ∃ t, step s = .next t ∧ t.fault = some ⟨.addressOutOfRange, 0xFFF#12, none, some 0x1000⟩ ∧
      Frame [] [.fault] (beginCycle s) t

/-- R105, R221: a word that decodes to nothing is no silent no-op: the cycle raises DecodeFailure. -/
def Obligations.UndecodedWordRaisesDecodeFailure : Prop :=
  ∀ s : State, s.fault = none → s.await = .running → s.pc.toNat + 1 ≤ 0xFFF →
    (∀ i, decode (s.readByte s.pc.toNat ++ s.readByte (s.pc.toNat + 1)) ≠ .ok i) →
    ∃ t r, step s = .next t ∧ t.fault = some r ∧ r.cause = .decodeFailure

/-- R226 (decision D9; log 14) for a decode failure: the record, and that nothing else changed since step 1: no
countdown, no pc advance. -/
def Obligations.DecodeFailureIsPrecise : Prop :=
  ∀ s : State, s.fault = none → s.await = .running → s.pc.toNat + 1 ≤ 0xFFF →
    (∀ i, decode (s.readByte s.pc.toNat ++ s.readByte (s.pc.toNat + 1)) ≠ .ok i) →
    ∃ t, step s = .next t ∧ Frame [] [.fault] (beginCycle s) t ∧
      t.fault = some ⟨.decodeFailure, s.pc, some (s.readByte s.pc.toNat ++ s.readByte (s.pc.toNat + 1)), none⟩

/-- R100 (decision D10; log 14): a cycle of a halted core changes nothing of the spec's state, and its result is the
recorded cause with both other outputs false. -/
def Obligations.HaltedCycleChangesNothing : Prop :=
  ∀ (s : State) (r : FaultRecord), s.fault = some r →
    ∃ t, step s = .next t ∧ Frame [] [.inputs] s t ∧
      cycleResult t = { vramDirty := false, shouldBeep := false, fault := some r.cause }

/-- R45, R230 (decision D10; log 14): a halt lasts, whatever the host presents, for any number of cycles. -/
def Obligations.HaltLastsUntilReset : Prop :=
  ∀ (k : Nat) (s : State), s.fault ≠ none →
    ∃ t, core.run k s = .next t ∧ Frame [] [.inputs] s t

/-- R102: the least pressed key of this cycle's snapshot goes to the pending register and ends the wait; no
instruction is fetched; step 4 runs. -/
def Obligations.AwaitedKeyIsWritten : Prop :=
  ∀ (s : State) (d : Reg) (k : Nat) (hk : k < 16), s.fault = none → s.await = .awaitingKey d →
    (currentInput s).keys[k] = true → (∀ (j : Nat) (hj : j < k), (currentInput s).keys[j] = false) →
    ∃ t, step s = .next t ∧ (t.reg d).toNat = k ∧ t.await = .running ∧ t.keypad = (currentInput s).keys ∧
      t.dirty = false ∧ t.tickPending = false ∧
      t.dt.toNat = (if (s.tickPending || (currentInput s).tick) then s.dt.toNat - 1 else s.dt.toNat) ∧
      t.st.toNat = (if (s.tickPending || (currentInput s).tick) then s.st.toNat - 1 else s.st.toNat) ∧
      Frame [d] [.await, .keypad, .dirty, .tick, .delay, .sound, .inputs] s t

/-- R103 (decision D20; log 16): with no key pressed the wait goes on, nothing is fetched, the timers stand still, a
tick stays latched, and the result shows the sound timer. -/
def Obligations.AwaitWithoutKeyHoldsTimers : Prop :=
  ∀ (s : State) (d : Reg), s.fault = none → s.await = .awaitingKey d →
    (∀ (k : Nat) (hk : k < 16), (currentInput s).keys[k] = false) →
    ∃ t, step s = .next t ∧ t.await = .awaitingKey d ∧ t.tickPending = (s.tickPending || (currentInput s).tick) ∧
      Frame [] [.keypad, .dirty, .tick, .inputs] s t ∧
      cycleResult t = { vramDirty := false, shouldBeep := decide (s.st.toNat > 0), fault := none }

/-- R112 (derived): `vram_dirty` is true exactly in a cycle that executed 00E0 or Dxyn without a fault. -/
def Obligations.VramDirtyExactlyAfterClearOrDraw : Prop :=
  ∀ s : State, ∃ t, step s = .next t ∧
    ((cycleResult t).vramDirty = true ↔
      s.fault = none ∧ s.await = .running ∧ t.fault = none ∧ s.pc.toNat + 1 ≤ 0xFFF ∧
      (decode (fetchWord s) = .ok .cls ∨ ∃ x y n, decode (fetchWord s) = .ok (.drw x y n)))

/-- R5, R45, R85: every activation completes, from every state: no step is refused or stops outside the spec. -/
def Obligations.EveryActivationCompletes : Prop :=
  ∀ s : State, ∃ t, step s = .next t

/-! ### Invariants and whole-machine rules -/

/-- The invariant `Inv` (canonical memory, and R44, R226, R238 for the fault record) is kept by every step from every
state that has it. -/
def Obligations.StepKeepsInvariant : Prop :=
  ∀ s t : State, Inv s → step s = .next t → Inv t

/-- The invariant holds after reset. -/
def Obligations.ResetHasInvariant : Prop :=
  Inv State.reset

/-- The canonical form is canonical: two memories in it that read alike at every address are the same data. -/
def Obligations.EqualReadsMakeEqualMemories : Prop :=
  ∀ (font : Font) (m m' : Memory), Memory.wf font m = true → Memory.wf font m' = true →
    (∀ a, Memory.read font m a = Memory.read font m' a) → m = m'

/-- THE FRAME OF EVERY INSTRUCTION (R11, R21 to R37, R174, R175; all-or-nothing is decision D9, log 14): it either
completes, and then only its destination registers, the parts its rule names and, of memory, the bytes it stores from
address I on (three for Fx33, x + 1 for Fx55, none for the others) differ; or it faults, and then nothing differs but
the record, which names it. Which cells of the screen 00E0 and Dxyn write is said by their own statements. -/
def Obligations.EveryInstructionKeepsItsFrame : Prop :=
  ∀ (i : Instr) (s : State), ∃ t, exec i s = .next t ∧
    ((Frame (destRegs i) (destParts i) s t ∧ SameMemoryOutside s.i.toNat (storedBytes i) s t) ∨
      ∃ c info, Faulted i c info s t)

/-- R222, R223, R224, R225, R228, R229 (decisions D4 to D8, D11, D28; logs 10 to 14): an instruction faults exactly when
a condition of `FaultCondition` holds; the record's cause is one whose condition holds, with the value that condition
gives it; and PcOutOfRange is the last: it is recorded only where no other cause's condition holds. -/
def Obligations.FaultCausesOfInstructions : Prop :=
  ∀ (i : Instr) (s : State), s.fault = none → ∃ t, exec i s = .next t ∧
    (t.fault ≠ none ↔ ∃ c info, FaultCondition i s c info) ∧
    ∀ r, t.fault = some r → FaultCondition i s r.cause r.info ∧
      (r.cause = .pcOutOfRange → ∀ c info, FaultCondition i s c info → c = .pcOutOfRange)

/-- R225, R12, R229 (decisions D5, D28; logs 11, 14): at 0xFFE or above no instruction but a jump or a return completes.
Where no check before the pc's failed, the fault is PcOutOfRange; its value is the successor that does not fit: pc + 4
for a taken skip, pc + 2 for every other instruction. -/
def Obligations.NoSuccessorAboveTop : Prop :=
  ∀ (i : Instr) (s : State), s.fault = none → s.pc.toNat + 2 > 0xFFF → i ≠ .ret → (∀ nnn, i ≠ .jp nnn) →
    (∀ nnn, i ≠ .jpV0 nnn) →
    ∃ t r, exec i s = .next t ∧ t.fault = some r ∧ r.ia = s.pc ∧ r.opcode = some (encode i) ∧
      (r.cause = .pcOutOfRange → r.info = some (s.pc.toNat + if skipTaken i s then 4 else 2)) ∧
      ((∀ c info, FaultCondition i s c info → c = .pcOutOfRange) → r.cause = .pcOutOfRange)

/-- R71, R256 (decision D24; log 25): a store over the next instruction is what the next fetch reads. -/
def Obligations.StoredCodeIsFetched : Prop :=
  ∀ (x : Reg) (s : State), 1 ≤ x.toNat → s.i.toNat = s.pc.toNat + 2 → s.i.toNat + x.toNat ≤ 0xFFF →
    ∃ t, exec (.ldMemVx x) s = .next t ∧ fetchWord t = s.reg 0 ++ s.reg 1

/-- R260 (decision D30): a core in a self-loop stays in it, and its registers, I, stack, memory and screen stay. -/
def Obligations.SelfLoopStays : Prop :=
  ∀ s : State, selfLoop s = true → ∃ t, step s = .next t ∧ selfLoop t = true ∧
    Frame [] [.keypad, .dirty, .tick, .delay, .sound, .inputs] s t

/-! ### Reset and ROM load -/

/-- R46, R250, R251 (several values by decision D16, log 22; the font's bytes by `font`, log 3): every element after
reset, and the host's reset in any state gives the same elements. The model's own choices, which the last clause rests
on: the host's reset keeps the fields `font`, `inputs`, `activations` and `rnd` (log 26), whose values in `State.reset`
are the default font, no inputs, 0 and 0 (logs 1, 2, 3). -/
def Obligations.ResetValues : Prop :=
  (∀ r, State.reset.reg r = 0) ∧ State.reset.pc = 0x200#12 ∧ State.reset.i = 0 ∧ State.reset.sp = 0 ∧
  State.reset.dt = 0 ∧ State.reset.st = 0 ∧ State.reset.dirty = false ∧ State.reset.await = .running ∧
  State.reset.tickPending = false ∧ State.reset.fault = none ∧
  (∀ (j : Nat) (h : j < 16), State.reset.stack[j] = 0 ∧ State.reset.keypad[j] = false) ∧
  (∀ row col, pixel State.reset.fb row col = false) ∧
  (∀ (a : Nat) (h : a < 80), State.reset.readByte a = State.reset.font[a]) ∧
  (∀ a, 80 ≤ a → State.reset.readByte a = 0) ∧
  ∀ s : State, { s.hostReset with font := defaultFont, inputs := [], activations := 0, rnd := 0 } = State.reset ∧
    s.hostReset.font = s.font

/-- R56, R252, R233 (decision D21; log 27): a ROM of at most 3584 bytes is copied to 0x200 and up and nothing else
changes; a longer one is rejected. -/
def Obligations.LoadRomCopiesVerbatim : Prop :=
  ∀ (bytes : List Byte) (s : State),
    (bytes.length ≤ 3584 → ∃ t, loadRom bytes s = .ok t ∧
      (∀ (k : Nat) (h : k < bytes.length), t.readByte (0x200 + k) = bytes[k]) ∧
      SameMemoryOutside 0x200 bytes.length s t ∧ Frame [] [.memory] s t) ∧
    (bytes.length > 3584 → loadRom bytes s = .error .romTooLarge)

/-- R55: the framebuffer port presents cell `row * 64 + col` as the byte 0 or 1. -/
def Obligations.FramebufferPortShowsCells : Prop :=
  ∀ (s : State) (row : Fin 32) (col : Fin 64),
    fbPort s (row.val * 64 + col.val) = if pixel s.fb row col then 1 else 0

/-! ### Control transfer -/

/-- R120: `JP nnn`, from every address and state. -/
def Obligations.JumpGoesToTarget : Prop :=
  ∀ (nnn : Addr) (s : State), decode (0x1#4 ++ nnn) = .ok (.jp nnn) ∧
    ∃ t, exec (.jp nnn) s = .next t ∧ t.pc = nnn ∧ Frame [] [.pc] s t

/-- R123 (decisions D5, D26; log 11): `JP V0, nnn` goes to the sum of V0 and nnn, which does not wrap, and faults when
it exceeds 0xFFF. -/
def Obligations.JumpOffsetAddsV0 : Prop :=
  ∀ (nnn : Addr) (s : State), decode (0xB#4 ++ nnn) = .ok (.jpV0 nnn) ∧
    ((s.reg 0).toNat + nnn.toNat ≤ 0xFFF →
      ∃ t, exec (.jpV0 nnn) s = .next t ∧ t.pc.toNat = (s.reg 0).toNat + nnn.toNat ∧ Frame [] [.pc] s t) ∧
    ((s.reg 0).toNat + nnn.toNat > 0xFFF →
      ∃ t, exec (.jpV0 nnn) s = .next t ∧
        Faulted (.jpV0 nnn) .pcOutOfRange (some ((s.reg 0).toNat + nnn.toNat)) s t)

/-- R121 (decision D7; log 12): `RET` pops the top entry into the pc and leaves it in its place; with SP = 0 it
faults. -/
def Obligations.ReturnPopsTopEntry : Prop :=
  ∀ s : State, decode 0x00EE#16 = .ok .ret ∧
    (∀ h : 0 < s.sp.val, ∃ t, exec .ret s = .next t ∧ t.pc = s.stack[s.sp.val - 1] ∧
      t.sp.val = s.sp.val - 1 ∧ t.stack = s.stack ∧ Frame [] [.pc, .stack] s t) ∧
    (s.sp = 0 → ∃ t, exec .ret s = .next t ∧ Faulted .ret .stackUnderflow none s t)

/-- R122, R222, R229 (decisions D5, D6, D28; logs 11, 12, 14): `CALL nnn` pushes the address after it and goes to nnn;
a full stack faults first, then a return address above 0xFFF. -/
def Obligations.CallPushesReturnAddress : Prop :=
  ∀ (nnn : Addr) (s : State), decode (0x2#4 ++ nnn) = .ok (.call nnn) ∧
    (s.sp.val < 16 → s.pc.toNat + 2 ≤ 0xFFF →
      ∃ t, exec (.call nnn) s = .next t ∧ t.pc = nnn ∧ t.sp.val = s.sp.val + 1 ∧
        (∀ (j : Nat) (h : j < 16), (t.stack[j]).toNat = if j = s.sp.val then s.pc.toNat + 2 else (s.stack[j]).toNat) ∧
        Frame [] [.pc, .stack] s t) ∧
    (s.sp = 16 → ∃ t, exec (.call nnn) s = .next t ∧ Faulted (.call nnn) .stackOverflow none s t) ∧
    (s.sp.val < 16 → s.pc.toNat + 2 > 0xFFF →
      ∃ t, exec (.call nnn) s = .next t ∧ Faulted (.call nnn) .pcOutOfRange (some (s.pc.toNat + 2)) s t)

/-- R121, R122, R129 (derived from them): a return right after a call comes back to the instruction after the call,
with the stack pointer and every register as before the call. -/
def Obligations.ReturnUndoesCall : Prop :=
  ∀ (nnn : Addr) (s : State), s.sp.val < 16 → s.pc.toNat + 2 ≤ 0xFFF →
    ∃ t u, exec (.call nnn) s = .next t ∧ exec .ret t = .next u ∧ u.pc.toNat = s.pc.toNat + 2 ∧ u.sp = s.sp ∧
      (∀ (j : Nat) (h : j < s.sp.val), u.stack[j]'(by omega) = s.stack[j]'(by omega)) ∧ Frame [] [.pc, .stack] s u

/-- R124, R125 (decision D5 for the fault; log 11): the skips on a byte: past the next word when taken, and
PcOutOfRange when the chosen successor exceeds 0xFFF. -/
def Obligations.SkipsOnByte : Prop :=
  ∀ (x : Reg) (kk : Byte) (s : State),
    let eqTarget := s.pc.toNat + (if s.reg x = kk then 4 else 2)
    let neTarget := s.pc.toNat + (if s.reg x ≠ kk then 4 else 2)
    decode (0x3#4 ++ (x ++ kk)) = .ok (.seImm x kk) ∧ decode (0x4#4 ++ (x ++ kk)) = .ok (.sneImm x kk) ∧
    (eqTarget ≤ 0xFFF → ∃ t, exec (.seImm x kk) s = .next t ∧ t.pc.toNat = eqTarget ∧ Frame [] [.pc] s t) ∧
    (eqTarget > 0xFFF →
      ∃ t, exec (.seImm x kk) s = .next t ∧ Faulted (.seImm x kk) .pcOutOfRange (some eqTarget) s t) ∧
    (neTarget ≤ 0xFFF → ∃ t, exec (.sneImm x kk) s = .next t ∧ t.pc.toNat = neTarget ∧ Frame [] [.pc] s t) ∧
    (neTarget > 0xFFF →
      ∃ t, exec (.sneImm x kk) s = .next t ∧ Faulted (.sneImm x kk) .pcOutOfRange (some neTarget) s t)

/-- R126, R127 (decision D5 for the fault; log 11): the skips on a register, x = y among them. -/
def Obligations.SkipsOnRegister : Prop :=
  ∀ (x y : Reg) (s : State),
    let eqTarget := s.pc.toNat + (if s.reg x = s.reg y then 4 else 2)
    let neTarget := s.pc.toNat + (if s.reg x ≠ s.reg y then 4 else 2)
    decode (0x5#4 ++ (x ++ (y ++ 0x0#4))) = .ok (.seReg x y) ∧
    decode (0x9#4 ++ (x ++ (y ++ 0x0#4))) = .ok (.sneReg x y) ∧
    (eqTarget ≤ 0xFFF → ∃ t, exec (.seReg x y) s = .next t ∧ t.pc.toNat = eqTarget ∧ Frame [] [.pc] s t) ∧
    (eqTarget > 0xFFF →
      ∃ t, exec (.seReg x y) s = .next t ∧ Faulted (.seReg x y) .pcOutOfRange (some eqTarget) s t) ∧
    (neTarget ≤ 0xFFF → ∃ t, exec (.sneReg x y) s = .next t ∧ t.pc.toNat = neTarget ∧ Frame [] [.pc] s t) ∧
    (neTarget > 0xFFF →
      ∃ t, exec (.sneReg x y) s = .next t ∧ Faulted (.sneReg x y) .pcOutOfRange (some neTarget) s t)

/-! ### Register loads and the ALU -/

/-- R140, R141: `LD Vx, kk` and `ADD Vx, kk`; the sum is truncated to 8 bits and no flag is written. -/
def Obligations.ImmediateLoadAndAdd : Prop :=
  ∀ (x : Reg) (kk : Byte) (s : State), s.pc.toNat + 2 ≤ 0xFFF →
    decode (0x6#4 ++ (x ++ kk)) = .ok (.ldImm x kk) ∧ decode (0x7#4 ++ (x ++ kk)) = .ok (.addImm x kk) ∧
    (∃ t, exec (.ldImm x kk) s = .next t ∧ t.reg x = kk ∧ t.pc.toNat = s.pc.toNat + 2 ∧ Frame [x] [.pc] s t) ∧
    ∃ t, exec (.addImm x kk) s = .next t ∧ (t.reg x).toNat = ((s.reg x).toNat + kk.toNat) % 256 ∧
      t.pc.toNat = s.pc.toNat + 2 ∧ Frame [x] [.pc] s t

/-- R142, R143, R144, R145: assign, OR, AND and XOR, bit by bit; no flag is written. -/
def Obligations.RegisterMoveAndLogic : Prop :=
  ∀ (x y : Reg) (s : State), s.pc.toNat + 2 ≤ 0xFFF →
    decode (0x8#4 ++ (x ++ (y ++ 0x0#4))) = .ok (.ldReg x y) ∧
    decode (0x8#4 ++ (x ++ (y ++ 0x1#4))) = .ok (.orReg x y) ∧
    decode (0x8#4 ++ (x ++ (y ++ 0x2#4))) = .ok (.andReg x y) ∧
    decode (0x8#4 ++ (x ++ (y ++ 0x3#4))) = .ok (.xorReg x y) ∧
    (∃ t, exec (.ldReg x y) s = .next t ∧ t.reg x = s.reg y ∧
      t.pc.toNat = s.pc.toNat + 2 ∧ Frame [x] [.pc] s t) ∧
    (∃ t, exec (.orReg x y) s = .next t ∧
      (∀ b, (t.reg x).getLsbD b = ((s.reg x).getLsbD b || (s.reg y).getLsbD b)) ∧
      t.pc.toNat = s.pc.toNat + 2 ∧ Frame [x] [.pc] s t) ∧
    (∃ t, exec (.andReg x y) s = .next t ∧
      (∀ b, (t.reg x).getLsbD b = ((s.reg x).getLsbD b && (s.reg y).getLsbD b)) ∧
      t.pc.toNat = s.pc.toNat + 2 ∧ Frame [x] [.pc] s t) ∧
    ∃ t, exec (.xorReg x y) s = .next t ∧
      (∀ b, (t.reg x).getLsbD b = ((s.reg x).getLsbD b ^^ (s.reg y).getLsbD b)) ∧
      t.pc.toNat = s.pc.toNat + 2 ∧ Frame [x] [.pc] s t

/-- R146 (decision D19 for x = F; log 19): `ADD Vx, Vy`: the sum mod 256, and VF is 1 when it exceeds 255, else 0; for
x = F the carry is what stays. -/
def Obligations.AddWritesCarry : Prop :=
  ∀ (x y : Reg) (s : State), s.pc.toNat + 2 ≤ 0xFFF →
    decode (0x8#4 ++ (x ++ (y ++ 0x4#4))) = .ok (.addReg x y) ∧
    ∃ t, exec (.addReg x y) s = .next t ∧
      (x ≠ 0xF#4 → (t.reg x).toNat = ((s.reg x).toNat + (s.reg y).toNat) % 256) ∧
      (t.reg 0xF#4).toNat = (if (s.reg x).toNat + (s.reg y).toNat > 255 then 1 else 0) ∧
      t.pc.toNat = s.pc.toNat + 2 ∧ Frame [x, 0xF#4] [.pc] s t

/-- R147, R149 (decision D19 for x = F; log 19): `SUB` and `SUBN`: the difference mod 256, and VF is 1 exactly when the
minuend is at least the subtrahend, of the old values; for x = F the flag is what stays. -/
def Obligations.SubtractsWriteNoBorrow : Prop :=
  ∀ (x y : Reg) (s : State), s.pc.toNat + 2 ≤ 0xFFF →
    decode (0x8#4 ++ (x ++ (y ++ 0x5#4))) = .ok (.subReg x y) ∧
    decode (0x8#4 ++ (x ++ (y ++ 0x7#4))) = .ok (.subnReg x y) ∧
    (∃ t, exec (.subReg x y) s = .next t ∧
      (x ≠ 0xF#4 → ((t.reg x).toNat : Int) = ((s.reg x).toNat - (s.reg y).toNat : Int) % 256) ∧
      (t.reg 0xF#4).toNat = (if (s.reg x).toNat ≥ (s.reg y).toNat then 1 else 0) ∧
      t.pc.toNat = s.pc.toNat + 2 ∧ Frame [x, 0xF#4] [.pc] s t) ∧
    ∃ t, exec (.subnReg x y) s = .next t ∧
      (x ≠ 0xF#4 → ((t.reg x).toNat : Int) = ((s.reg y).toNat - (s.reg x).toNat : Int) % 256) ∧
      (t.reg 0xF#4).toNat = (if (s.reg y).toNat ≥ (s.reg x).toNat then 1 else 0) ∧
      t.pc.toNat = s.pc.toNat + 2 ∧ Frame [x, 0xF#4] [.pc] s t

/-- R148, R150, R96 (decision D19 for x = F; log 19): `SHR` and `SHL` shift Vx whatever y names, and VF holds the bit
shifted out; for x = F the shifted flag is what stays: 0 after SHR, 2 or 0 after SHL. -/
def Obligations.ShiftsWriteBitShiftedOut : Prop :=
  ∀ (x y : Reg) (s : State), s.pc.toNat + 2 ≤ 0xFFF →
    decode (0x8#4 ++ (x ++ (y ++ 0x6#4))) = .ok (.shr x y) ∧
    decode (0x8#4 ++ (x ++ (y ++ 0xE#4))) = .ok (.shl x y) ∧
    (∃ t, exec (.shr x y) s = .next t ∧
      (x ≠ 0xF#4 → (t.reg x).toNat = (s.reg x).toNat / 2 ∧ (t.reg 0xF#4).toNat = (s.reg x).toNat % 2) ∧
      (x = 0xF#4 → t.reg 0xF#4 = 0) ∧
      t.pc.toNat = s.pc.toNat + 2 ∧ Frame [x, 0xF#4] [.pc] s t) ∧
    ∃ t, exec (.shl x y) s = .next t ∧
      (x ≠ 0xF#4 → (t.reg x).toNat = 2 * (s.reg x).toNat % 256 ∧ (t.reg 0xF#4).toNat = (s.reg x).toNat / 128) ∧
      (x = 0xF#4 → t.reg 0xF#4 = if (s.reg 0xF#4).toNat ≥ 128 then 2 else 0) ∧
      t.pc.toNat = s.pc.toNat + 2 ∧ Frame [x, 0xF#4] [.pc] s t

/-- R152 (decision D3; logs 1, 2): `RND Vx, kk` stores the cycle's random byte under the mask, whatever that byte is:
within a cycle it is the `rnd` of the inputs presented for it. -/
def Obligations.RandomByteIsMasked : Prop :=
  ∀ (x : Reg) (kk : Byte) (s : State), s.pc.toNat + 2 ≤ 0xFFF →
    decode (0xC#4 ++ (x ++ kk)) = .ok (.rnd x kk) ∧
    (∃ t, exec (.rnd x kk) s = .next t ∧
      (∀ b, (t.reg x).getLsbD b = (s.rnd.getLsbD b && kk.getLsbD b)) ∧
      t.pc.toNat = s.pc.toNat + 2 ∧ Frame [x] [.pc] s t) ∧
    ∃ t, exec (.rnd x kk) (beginCycle s) = .next t ∧
      ∀ b, (t.reg x).getLsbD b = ((currentInput s).rnd.getLsbD b && kk.getLsbD b)

/-! ### The index register and memory -/

/-- R170, R173: `LD I, nnn` and `LD F, Vx`; Vx is not reduced to its low nibble. -/
def Obligations.IndexLoads : Prop :=
  ∀ (nnn : Addr) (x : Reg) (s : State), s.pc.toNat + 2 ≤ 0xFFF →
    decode (0xA#4 ++ nnn) = .ok (.ldI nnn) ∧ decode (0xF#4 ++ (x ++ 0x29#8)) = .ok (.ldF x) ∧
    (∃ t, exec (.ldI nnn) s = .next t ∧ t.i = nnn ∧ t.pc.toNat = s.pc.toNat + 2 ∧ Frame [] [.pc, .index] s t) ∧
    ∃ t, exec (.ldF x) s = .next t ∧ t.i.toNat = (s.reg x).toNat * 5 ∧ t.pc.toNat = s.pc.toNat + 2 ∧
      Frame [] [.pc, .index] s t

/-- R172 (decision D19 for x = F; log 19): `ADD I, Vx`: the sum mod 4096, and VF is 1 when the sum exceeded 4095. -/
def Obligations.IndexAddWritesCarry : Prop :=
  ∀ (x : Reg) (s : State), s.pc.toNat + 2 ≤ 0xFFF →
    decode (0xF#4 ++ (x ++ 0x1E#8)) = .ok (.addI x) ∧
    ∃ t, exec (.addI x) s = .next t ∧ t.i.toNat = (s.i.toNat + (s.reg x).toNat) % 4096 ∧
      (t.reg 0xF#4).toNat = (if s.i.toNat + (s.reg x).toNat > 4095 then 1 else 0) ∧
      t.pc.toNat = s.pc.toNat + 2 ∧ Frame [0xF#4] [.pc, .index] s t

/-- R174 (decision D4 for the fault; log 10): `LD B, Vx` stores the three decimal digits at I, I+1 and I+2 and nothing
else; a span past 0xFFF faults before any byte is written. -/
def Obligations.BcdStoresThreeDigits : Prop :=
  ∀ (x : Reg) (s : State), decode (0xF#4 ++ (x ++ 0x33#8)) = .ok (.ldB x) ∧
    (s.pc.toNat + 2 ≤ 0xFFF → s.i.toNat + 2 ≤ 0xFFF →
      ∃ t, exec (.ldB x) s = .next t ∧ (t.readByte s.i.toNat).toNat = (s.reg x).toNat / 100 ∧
        (t.readByte (s.i.toNat + 1)).toNat = (s.reg x).toNat / 10 % 10 ∧
        (t.readByte (s.i.toNat + 2)).toNat = (s.reg x).toNat % 10 ∧
        SameMemoryOutside s.i.toNat 3 s t ∧ t.pc.toNat = s.pc.toNat + 2 ∧ Frame [] [.pc, .memory] s t) ∧
    (s.i.toNat + 2 > 0xFFF →
      ∃ t, exec (.ldB x) s = .next t ∧ Faulted (.ldB x) .addressOutOfRange (some 0x1000) s t)

/-- R175 (decisions D4, D18; logs 10, 20): `LD [I], Vx` stores V0 to Vx at I and up and nothing else, and leaves I; a
span past 0xFFF faults before any byte is written. -/
def Obligations.RegisterDumpStoresInOrder : Prop :=
  ∀ (x : Reg) (s : State), decode (0xF#4 ++ (x ++ 0x55#8)) = .ok (.ldMemVx x) ∧
    (s.pc.toNat + 2 ≤ 0xFFF → s.i.toNat + x.toNat ≤ 0xFFF →
      ∃ t, exec (.ldMemVx x) s = .next t ∧
        (∀ r : Reg, r.toNat ≤ x.toNat → t.readByte (s.i.toNat + r.toNat) = s.reg r) ∧
        SameMemoryOutside s.i.toNat (x.toNat + 1) s t ∧ t.pc.toNat = s.pc.toNat + 2 ∧ Frame [] [.pc, .memory] s t) ∧
    (s.i.toNat + x.toNat > 0xFFF →
      ∃ t, exec (.ldMemVx x) s = .next t ∧ Faulted (.ldMemVx x) .addressOutOfRange (some 0x1000) s t)

/-- R176 (decisions D4, D18; logs 10, 20): `LD Vx, [I]` loads V0 to Vx from I and up, leaves the registers above x and
I; a span past 0xFFF faults before any register is written. -/
def Obligations.RegisterLoadReadsInOrder : Prop :=
  ∀ (x : Reg) (s : State), decode (0xF#4 ++ (x ++ 0x65#8)) = .ok (.ldVxMem x) ∧
    (s.pc.toNat + 2 ≤ 0xFFF → s.i.toNat + x.toNat ≤ 0xFFF →
      ∃ t, exec (.ldVxMem x) s = .next t ∧
        (∀ r : Reg, t.reg r = if r.toNat ≤ x.toNat then s.readByte (s.i.toNat + r.toNat) else s.reg r) ∧
        t.pc.toNat = s.pc.toNat + 2 ∧ Frame (destRegs (.ldVxMem x)) [.pc] s t) ∧
    (s.i.toNat + x.toNat > 0xFFF →
      ∃ t, exec (.ldVxMem x) s = .next t ∧ Faulted (.ldVxMem x) .addressOutOfRange (some 0x1000) s t)

/-! ### The display -/

/-- R190: `CLS` zeroes every cell and sets DIRTY, whatever was on the screen, so that the cycle reports `vram_dirty`;
it writes no register. -/
def Obligations.ClearZeroesScreen : Prop :=
  ∀ s : State, s.pc.toNat + 2 ≤ 0xFFF → decode 0x00E0#16 = .ok .cls ∧
    ∃ t, exec .cls s = .next t ∧ (∀ row col, pixel t.fb row col = false) ∧ t.dirty = true ∧
      t.pc.toNat = s.pc.toNat + 2 ∧ Frame [] [.pc, .screen, .dirty] s t ∧
      (s.fault = none → (cycleResult (endCycle t)).vramDirty = true)

/-- R191, R192, R193 (decisions D4, D14; logs 10, 18; R192 is derived): `DRW Vx, Vy, n` changes exactly the cells under
a sprite bit of 1, each coordinate wrapped; VF is 1 exactly when a cell went from on to off; DIRTY is set. -/
def Obligations.DrawXorsSprite : Prop :=
  ∀ (x y : Reg) (n : Nibble) (s : State), decode (0xD#4 ++ (x ++ (y ++ n))) = .ok (.drw x y n) ∧
    (s.pc.toNat + 2 ≤ 0xFFF → (n = 0 ∨ s.i.toNat + n.toNat - 1 ≤ 0xFFF) →
      ∃ t, exec (.drw x y n) s = .next t ∧
        (∀ (row : Fin 32) (col : Fin 64), pixel t.fb row col ≠ pixel s.fb row col ↔
          ∃ r b, r < n.toNat ∧ b < 8 ∧ row.val = ((s.reg y).toNat + r) % 32 ∧
            col.val = ((s.reg x).toNat + b) % 64 ∧ (s.readByte (s.i.toNat + r)).getLsbD (7 - b) = true) ∧
        ((∃ row col, pixel s.fb row col = true ∧ pixel t.fb row col = false) → t.reg 0xF#4 = 1) ∧
        ((¬ ∃ row col, pixel s.fb row col = true ∧ pixel t.fb row col = false) → t.reg 0xF#4 = 0) ∧
        t.dirty = true ∧ t.pc.toNat = s.pc.toNat + 2 ∧ Frame [0xF#4] [.pc, .screen, .dirty] s t) ∧
    (n ≠ 0 → s.i.toNat + n.toNat - 1 > 0xFFF →
      ∃ t, exec (.drw x y n) s = .next t ∧ Faulted (.drw x y n) .addressOutOfRange (some 0x1000) s t)

/-- R195: `DRW` with n = 0 draws nothing, clears VF and sets DIRTY, from any I. -/
def Obligations.DrawOfNoRows : Prop :=
  ∀ (x y : Reg) (s : State), s.pc.toNat + 2 ≤ 0xFFF →
    ∃ t, exec (.drw x y 0) s = .next t ∧ t.reg 0xF#4 = 0 ∧ t.dirty = true ∧ t.pc.toNat = s.pc.toNat + 2 ∧
      Frame [0xF#4] [.pc, .dirty] s t

/-- R196 (its second sentence is derived): the same sprite drawn twice at the same position restores every cell, and
the second VF is 1 exactly when some cell under a sprite bit of 1 was off before the first draw. With x or y = F the
position is the same only when the first draw leaves that coordinate, which the premises say. -/
def Obligations.DrawTwiceRestores : Prop :=
  ∀ (x y : Reg) (n : Nibble) (s t : State), exec (.drw x y n) s = .next t → t.fault = none →
    t.reg x = s.reg x → t.reg y = s.reg y → t.pc.toNat + 2 ≤ 0xFFF →
    ∃ u, exec (.drw x y n) t = .next u ∧ (∀ row col, pixel u.fb row col = pixel s.fb row col) ∧
      (u.reg 0xF#4 = 1 ↔ ∃ row col, pixel s.fb row col = false ∧ pixel t.fb row col = true) ∧
      Frame [0xF#4] [.pc, .dirty] s u

/-! ### Keypad and timers -/

/-- R200, R201 (decisions D8, D5; logs 11, 13): the keypad skips test this cycle's key Vx; an index above 15 faults
first, then a successor above 0xFFF. -/
def Obligations.SkipsOnKey : Prop :=
  ∀ (x : Reg) (s : State),
    decode (0xE#4 ++ (x ++ 0x9E#8)) = .ok (.skp x) ∧ decode (0xE#4 ++ (x ++ 0xA1#8)) = .ok (.sknp x) ∧
    (∀ h : (s.reg x).toNat < 16,
      let downTarget := s.pc.toNat + (if s.keypad[(s.reg x).toNat] = true then 4 else 2)
      let upTarget := s.pc.toNat + (if s.keypad[(s.reg x).toNat] = false then 4 else 2)
      (downTarget ≤ 0xFFF → ∃ t, exec (.skp x) s = .next t ∧ t.pc.toNat = downTarget ∧ Frame [] [.pc] s t) ∧
      (downTarget > 0xFFF →
        ∃ t, exec (.skp x) s = .next t ∧ Faulted (.skp x) .pcOutOfRange (some downTarget) s t) ∧
      (upTarget ≤ 0xFFF → ∃ t, exec (.sknp x) s = .next t ∧ t.pc.toNat = upTarget ∧ Frame [] [.pc] s t) ∧
      (upTarget > 0xFFF →
        ∃ t, exec (.sknp x) s = .next t ∧ Faulted (.sknp x) .pcOutOfRange (some upTarget) s t)) ∧
    ((s.reg x).toNat > 15 →
      (∃ t, exec (.skp x) s = .next t ∧ Faulted (.skp x) .keyIndexOutOfRange (some (s.reg x).toNat) s t) ∧
      ∃ t, exec (.sknp x) s = .next t ∧ Faulted (.sknp x) .keyIndexOutOfRange (some (s.reg x).toNat) s t)

/-- R202: `LD Vx, DT` reads the timer before the cycle's countdown. -/
def Obligations.DelayTimerIsRead : Prop :=
  ∀ (x : Reg) (s : State), s.pc.toNat + 2 ≤ 0xFFF → decode (0xF#4 ++ (x ++ 0x07#8)) = .ok (.ldVxDt x) ∧
    ∃ t, exec (.ldVxDt x) s = .next t ∧ t.reg x = s.dt ∧ t.pc.toNat = s.pc.toNat + 2 ∧ Frame [x] [.pc] s t ∧
      (s.fault = none → (endCycle t).reg x = s.dt)

/-- R204, R205: the timers take Vx, and a tick pending in the same cycle already takes one from the value written. -/
def Obligations.TimersAreSet : Prop :=
  ∀ (x : Reg) (s : State), s.pc.toNat + 2 ≤ 0xFFF →
    decode (0xF#4 ++ (x ++ 0x15#8)) = .ok (.ldDtVx x) ∧ decode (0xF#4 ++ (x ++ 0x18#8)) = .ok (.ldStVx x) ∧
    (∃ t, exec (.ldDtVx x) s = .next t ∧ t.dt = s.reg x ∧ t.pc.toNat = s.pc.toNat + 2 ∧
      Frame [] [.pc, .delay] s t ∧
      (s.fault = none → (endCycle t).dt.toNat = (s.reg x).toNat - (if s.tickPending then 1 else 0))) ∧
    ∃ t, exec (.ldStVx x) s = .next t ∧ t.st = s.reg x ∧ t.pc.toNat = s.pc.toNat + 2 ∧
      Frame [] [.pc, .sound] s t ∧
      (s.fault = none → (endCycle t).st.toNat = (s.reg x).toNat - (if s.tickPending then 1 else 0) ∧
        (cycleResult (endCycle t)).shouldBeep = decide ((endCycle t).st.toNat > 0))

/-- R203: `LD Vx, K` enters the await-keypad state with destination x, past the instruction, and writes no register. -/
def Obligations.AwaitKeyEntersWait : Prop :=
  ∀ (x : Reg) (s : State), s.pc.toNat + 2 ≤ 0xFFF → decode (0xF#4 ++ (x ++ 0x0A#8)) = .ok (.ldVxK x) ∧
    ∃ t, exec (.ldVxK x) s = .next t ∧ t.await = .awaitingKey x ∧ t.pc.toNat = s.pc.toNat + 2 ∧
      Frame [] [.pc, .await] s t
end

