-- ==== Sys2Proof/Laws/State.lean ====
section
/-! SUPPORT. One lemma per field per update of State, so that no proof unfolds a record update. -/

namespace Sys2Proof.Machine

@[simp] theorem setVf_eq (s : State) (b : Byte) : s.setVf b = s.setReg Config.vf b := rfl

/-! ### setReg -/

@[simp] theorem setReg_v (s : State) (r : Reg) (b : Byte) : (s.setReg r b).v = s.v.set r.toNat b r.isLt := rfl
@[simp] theorem setReg_pc (s : State) (r : Reg) (b : Byte) : (s.setReg r b).pc = s.pc := rfl
@[simp] theorem setReg_i (s : State) (r : Reg) (b : Byte) : (s.setReg r b).i = s.i := rfl
@[simp] theorem setReg_sp (s : State) (r : Reg) (b : Byte) : (s.setReg r b).sp = s.sp := rfl
@[simp] theorem setReg_stack (s : State) (r : Reg) (b : Byte) : (s.setReg r b).stack = s.stack := rfl
@[simp] theorem setReg_dt (s : State) (r : Reg) (b : Byte) : (s.setReg r b).dt = s.dt := rfl
@[simp] theorem setReg_st (s : State) (r : Reg) (b : Byte) : (s.setReg r b).st = s.st := rfl
@[simp] theorem setReg_mem (s : State) (r : Reg) (b : Byte) : (s.setReg r b).mem = s.mem := rfl
@[simp] theorem setReg_fb (s : State) (r : Reg) (b : Byte) : (s.setReg r b).fb = s.fb := rfl
@[simp] theorem setReg_keypad (s : State) (r : Reg) (b : Byte) : (s.setReg r b).keypad = s.keypad := rfl
@[simp] theorem setReg_dirty (s : State) (r : Reg) (b : Byte) : (s.setReg r b).dirty = s.dirty := rfl
@[simp] theorem setReg_await (s : State) (r : Reg) (b : Byte) : (s.setReg r b).await = s.await := rfl
@[simp] theorem setReg_tickPending (s : State) (r : Reg) (b : Byte) : (s.setReg r b).tickPending = s.tickPending := rfl
@[simp] theorem setReg_fault (s : State) (r : Reg) (b : Byte) : (s.setReg r b).fault = s.fault := rfl
@[simp] theorem setReg_font (s : State) (r : Reg) (b : Byte) : (s.setReg r b).font = s.font := rfl
@[simp] theorem setReg_inputs (s : State) (r : Reg) (b : Byte) : (s.setReg r b).inputs = s.inputs := rfl
@[simp] theorem setReg_activations (s : State) (r : Reg) (b : Byte) : (s.setReg r b).activations = s.activations := rfl
@[simp] theorem setReg_rnd (s : State) (r : Reg) (b : Byte) : (s.setReg r b).rnd = s.rnd := rfl
@[simp] theorem setReg_readByte (s : State) (r : Reg) (b : Byte) (k : Nat) : (s.setReg r b).readByte k = s.readByte k := rfl
@[simp] theorem setReg_pcSeq (s : State) (r : Reg) (b : Byte) : (s.setReg r b).pcSeq = s.pcSeq := rfl
@[simp] theorem setReg_effectiveAddr (s : State) (r : Reg) (b : Byte) (k : Nat) : effectiveAddr (s.setReg r b) k = effectiveAddr s k := rfl

/-! ### setI -/

@[simp] theorem setI_v (s : State) (a : Addr) : (s.setI a).v = s.v := rfl
@[simp] theorem setI_pc (s : State) (a : Addr) : (s.setI a).pc = s.pc := rfl
@[simp] theorem setI_i (s : State) (a : Addr) : (s.setI a).i = a := rfl
@[simp] theorem setI_sp (s : State) (a : Addr) : (s.setI a).sp = s.sp := rfl
@[simp] theorem setI_stack (s : State) (a : Addr) : (s.setI a).stack = s.stack := rfl
@[simp] theorem setI_dt (s : State) (a : Addr) : (s.setI a).dt = s.dt := rfl
@[simp] theorem setI_st (s : State) (a : Addr) : (s.setI a).st = s.st := rfl
@[simp] theorem setI_mem (s : State) (a : Addr) : (s.setI a).mem = s.mem := rfl
@[simp] theorem setI_fb (s : State) (a : Addr) : (s.setI a).fb = s.fb := rfl
@[simp] theorem setI_keypad (s : State) (a : Addr) : (s.setI a).keypad = s.keypad := rfl
@[simp] theorem setI_dirty (s : State) (a : Addr) : (s.setI a).dirty = s.dirty := rfl
@[simp] theorem setI_await (s : State) (a : Addr) : (s.setI a).await = s.await := rfl
@[simp] theorem setI_tickPending (s : State) (a : Addr) : (s.setI a).tickPending = s.tickPending := rfl
@[simp] theorem setI_fault (s : State) (a : Addr) : (s.setI a).fault = s.fault := rfl
@[simp] theorem setI_font (s : State) (a : Addr) : (s.setI a).font = s.font := rfl
@[simp] theorem setI_inputs (s : State) (a : Addr) : (s.setI a).inputs = s.inputs := rfl
@[simp] theorem setI_activations (s : State) (a : Addr) : (s.setI a).activations = s.activations := rfl
@[simp] theorem setI_rnd (s : State) (a : Addr) : (s.setI a).rnd = s.rnd := rfl
@[simp] theorem setI_reg (s : State) (a : Addr) (q : Reg) : (s.setI a).reg q = s.reg q := rfl
@[simp] theorem setI_readByte (s : State) (a : Addr) (k : Nat) : (s.setI a).readByte k = s.readByte k := rfl
@[simp] theorem setI_pcSeq (s : State) (a : Addr) : (s.setI a).pcSeq = s.pcSeq := rfl

/-! ### setDt -/

@[simp] theorem setDt_v (s : State) (b : Byte) : (s.setDt b).v = s.v := rfl
@[simp] theorem setDt_pc (s : State) (b : Byte) : (s.setDt b).pc = s.pc := rfl
@[simp] theorem setDt_i (s : State) (b : Byte) : (s.setDt b).i = s.i := rfl
@[simp] theorem setDt_sp (s : State) (b : Byte) : (s.setDt b).sp = s.sp := rfl
@[simp] theorem setDt_stack (s : State) (b : Byte) : (s.setDt b).stack = s.stack := rfl
@[simp] theorem setDt_dt (s : State) (b : Byte) : (s.setDt b).dt = b := rfl
@[simp] theorem setDt_st (s : State) (b : Byte) : (s.setDt b).st = s.st := rfl
@[simp] theorem setDt_mem (s : State) (b : Byte) : (s.setDt b).mem = s.mem := rfl
@[simp] theorem setDt_fb (s : State) (b : Byte) : (s.setDt b).fb = s.fb := rfl
@[simp] theorem setDt_keypad (s : State) (b : Byte) : (s.setDt b).keypad = s.keypad := rfl
@[simp] theorem setDt_dirty (s : State) (b : Byte) : (s.setDt b).dirty = s.dirty := rfl
@[simp] theorem setDt_await (s : State) (b : Byte) : (s.setDt b).await = s.await := rfl
@[simp] theorem setDt_tickPending (s : State) (b : Byte) : (s.setDt b).tickPending = s.tickPending := rfl
@[simp] theorem setDt_fault (s : State) (b : Byte) : (s.setDt b).fault = s.fault := rfl
@[simp] theorem setDt_font (s : State) (b : Byte) : (s.setDt b).font = s.font := rfl
@[simp] theorem setDt_inputs (s : State) (b : Byte) : (s.setDt b).inputs = s.inputs := rfl
@[simp] theorem setDt_activations (s : State) (b : Byte) : (s.setDt b).activations = s.activations := rfl
@[simp] theorem setDt_rnd (s : State) (b : Byte) : (s.setDt b).rnd = s.rnd := rfl
@[simp] theorem setDt_reg (s : State) (b : Byte) (q : Reg) : (s.setDt b).reg q = s.reg q := rfl
@[simp] theorem setDt_readByte (s : State) (b : Byte) (k : Nat) : (s.setDt b).readByte k = s.readByte k := rfl
@[simp] theorem setDt_pcSeq (s : State) (b : Byte) : (s.setDt b).pcSeq = s.pcSeq := rfl
@[simp] theorem setDt_effectiveAddr (s : State) (b : Byte) (k : Nat) : effectiveAddr (s.setDt b) k = effectiveAddr s k := rfl

/-! ### setSt -/

@[simp] theorem setSt_v (s : State) (b : Byte) : (s.setSt b).v = s.v := rfl
@[simp] theorem setSt_pc (s : State) (b : Byte) : (s.setSt b).pc = s.pc := rfl
@[simp] theorem setSt_i (s : State) (b : Byte) : (s.setSt b).i = s.i := rfl
@[simp] theorem setSt_sp (s : State) (b : Byte) : (s.setSt b).sp = s.sp := rfl
@[simp] theorem setSt_stack (s : State) (b : Byte) : (s.setSt b).stack = s.stack := rfl
@[simp] theorem setSt_dt (s : State) (b : Byte) : (s.setSt b).dt = s.dt := rfl
@[simp] theorem setSt_st (s : State) (b : Byte) : (s.setSt b).st = b := rfl
@[simp] theorem setSt_mem (s : State) (b : Byte) : (s.setSt b).mem = s.mem := rfl
@[simp] theorem setSt_fb (s : State) (b : Byte) : (s.setSt b).fb = s.fb := rfl
@[simp] theorem setSt_keypad (s : State) (b : Byte) : (s.setSt b).keypad = s.keypad := rfl
@[simp] theorem setSt_dirty (s : State) (b : Byte) : (s.setSt b).dirty = s.dirty := rfl
@[simp] theorem setSt_await (s : State) (b : Byte) : (s.setSt b).await = s.await := rfl
@[simp] theorem setSt_tickPending (s : State) (b : Byte) : (s.setSt b).tickPending = s.tickPending := rfl
@[simp] theorem setSt_fault (s : State) (b : Byte) : (s.setSt b).fault = s.fault := rfl
@[simp] theorem setSt_font (s : State) (b : Byte) : (s.setSt b).font = s.font := rfl
@[simp] theorem setSt_inputs (s : State) (b : Byte) : (s.setSt b).inputs = s.inputs := rfl
@[simp] theorem setSt_activations (s : State) (b : Byte) : (s.setSt b).activations = s.activations := rfl
@[simp] theorem setSt_rnd (s : State) (b : Byte) : (s.setSt b).rnd = s.rnd := rfl
@[simp] theorem setSt_reg (s : State) (b : Byte) (q : Reg) : (s.setSt b).reg q = s.reg q := rfl
@[simp] theorem setSt_readByte (s : State) (b : Byte) (k : Nat) : (s.setSt b).readByte k = s.readByte k := rfl
@[simp] theorem setSt_pcSeq (s : State) (b : Byte) : (s.setSt b).pcSeq = s.pcSeq := rfl
@[simp] theorem setSt_effectiveAddr (s : State) (b : Byte) (k : Nat) : effectiveAddr (s.setSt b) k = effectiveAddr s k := rfl

/-! ### setAwait -/

@[simp] theorem setAwait_v (s : State) (a : Await) : (s.setAwait a).v = s.v := rfl
@[simp] theorem setAwait_pc (s : State) (a : Await) : (s.setAwait a).pc = s.pc := rfl
@[simp] theorem setAwait_i (s : State) (a : Await) : (s.setAwait a).i = s.i := rfl
@[simp] theorem setAwait_sp (s : State) (a : Await) : (s.setAwait a).sp = s.sp := rfl
@[simp] theorem setAwait_stack (s : State) (a : Await) : (s.setAwait a).stack = s.stack := rfl
@[simp] theorem setAwait_dt (s : State) (a : Await) : (s.setAwait a).dt = s.dt := rfl
@[simp] theorem setAwait_st (s : State) (a : Await) : (s.setAwait a).st = s.st := rfl
@[simp] theorem setAwait_mem (s : State) (a : Await) : (s.setAwait a).mem = s.mem := rfl
@[simp] theorem setAwait_fb (s : State) (a : Await) : (s.setAwait a).fb = s.fb := rfl
@[simp] theorem setAwait_keypad (s : State) (a : Await) : (s.setAwait a).keypad = s.keypad := rfl
@[simp] theorem setAwait_dirty (s : State) (a : Await) : (s.setAwait a).dirty = s.dirty := rfl
@[simp] theorem setAwait_await (s : State) (a : Await) : (s.setAwait a).await = a := rfl
@[simp] theorem setAwait_tickPending (s : State) (a : Await) : (s.setAwait a).tickPending = s.tickPending := rfl
@[simp] theorem setAwait_fault (s : State) (a : Await) : (s.setAwait a).fault = s.fault := rfl
@[simp] theorem setAwait_font (s : State) (a : Await) : (s.setAwait a).font = s.font := rfl
@[simp] theorem setAwait_inputs (s : State) (a : Await) : (s.setAwait a).inputs = s.inputs := rfl
@[simp] theorem setAwait_activations (s : State) (a : Await) : (s.setAwait a).activations = s.activations := rfl
@[simp] theorem setAwait_rnd (s : State) (a : Await) : (s.setAwait a).rnd = s.rnd := rfl
@[simp] theorem setAwait_reg (s : State) (a : Await) (q : Reg) : (s.setAwait a).reg q = s.reg q := rfl
@[simp] theorem setAwait_readByte (s : State) (a : Await) (k : Nat) : (s.setAwait a).readByte k = s.readByte k := rfl
@[simp] theorem setAwait_pcSeq (s : State) (a : Await) : (s.setAwait a).pcSeq = s.pcSeq := rfl
@[simp] theorem setAwait_effectiveAddr (s : State) (a : Await) (k : Nat) : effectiveAddr (s.setAwait a) k = effectiveAddr s k := rfl

/-! ### setFb -/

@[simp] theorem setFb_v (s : State) (f : Framebuffer) : (s.setFb f).v = s.v := rfl
@[simp] theorem setFb_pc (s : State) (f : Framebuffer) : (s.setFb f).pc = s.pc := rfl
@[simp] theorem setFb_i (s : State) (f : Framebuffer) : (s.setFb f).i = s.i := rfl
@[simp] theorem setFb_sp (s : State) (f : Framebuffer) : (s.setFb f).sp = s.sp := rfl
@[simp] theorem setFb_stack (s : State) (f : Framebuffer) : (s.setFb f).stack = s.stack := rfl
@[simp] theorem setFb_dt (s : State) (f : Framebuffer) : (s.setFb f).dt = s.dt := rfl
@[simp] theorem setFb_st (s : State) (f : Framebuffer) : (s.setFb f).st = s.st := rfl
@[simp] theorem setFb_mem (s : State) (f : Framebuffer) : (s.setFb f).mem = s.mem := rfl
@[simp] theorem setFb_fb (s : State) (f : Framebuffer) : (s.setFb f).fb = f := rfl
@[simp] theorem setFb_keypad (s : State) (f : Framebuffer) : (s.setFb f).keypad = s.keypad := rfl
@[simp] theorem setFb_dirty (s : State) (f : Framebuffer) : (s.setFb f).dirty = s.dirty := rfl
@[simp] theorem setFb_await (s : State) (f : Framebuffer) : (s.setFb f).await = s.await := rfl
@[simp] theorem setFb_tickPending (s : State) (f : Framebuffer) : (s.setFb f).tickPending = s.tickPending := rfl
@[simp] theorem setFb_fault (s : State) (f : Framebuffer) : (s.setFb f).fault = s.fault := rfl
@[simp] theorem setFb_font (s : State) (f : Framebuffer) : (s.setFb f).font = s.font := rfl
@[simp] theorem setFb_inputs (s : State) (f : Framebuffer) : (s.setFb f).inputs = s.inputs := rfl
@[simp] theorem setFb_activations (s : State) (f : Framebuffer) : (s.setFb f).activations = s.activations := rfl
@[simp] theorem setFb_rnd (s : State) (f : Framebuffer) : (s.setFb f).rnd = s.rnd := rfl
@[simp] theorem setFb_reg (s : State) (f : Framebuffer) (q : Reg) : (s.setFb f).reg q = s.reg q := rfl
@[simp] theorem setFb_readByte (s : State) (f : Framebuffer) (k : Nat) : (s.setFb f).readByte k = s.readByte k := rfl
@[simp] theorem setFb_pcSeq (s : State) (f : Framebuffer) : (s.setFb f).pcSeq = s.pcSeq := rfl
@[simp] theorem setFb_effectiveAddr (s : State) (f : Framebuffer) (k : Nat) : effectiveAddr (s.setFb f) k = effectiveAddr s k := rfl

/-! ### markDirty -/

@[simp] theorem markDirty_v (s : State) : (s.markDirty).v = s.v := rfl
@[simp] theorem markDirty_pc (s : State) : (s.markDirty).pc = s.pc := rfl
@[simp] theorem markDirty_i (s : State) : (s.markDirty).i = s.i := rfl
@[simp] theorem markDirty_sp (s : State) : (s.markDirty).sp = s.sp := rfl
@[simp] theorem markDirty_stack (s : State) : (s.markDirty).stack = s.stack := rfl
@[simp] theorem markDirty_dt (s : State) : (s.markDirty).dt = s.dt := rfl
@[simp] theorem markDirty_st (s : State) : (s.markDirty).st = s.st := rfl
@[simp] theorem markDirty_mem (s : State) : (s.markDirty).mem = s.mem := rfl
@[simp] theorem markDirty_fb (s : State) : (s.markDirty).fb = s.fb := rfl
@[simp] theorem markDirty_keypad (s : State) : (s.markDirty).keypad = s.keypad := rfl
@[simp] theorem markDirty_dirty (s : State) : (s.markDirty).dirty = true := rfl
@[simp] theorem markDirty_await (s : State) : (s.markDirty).await = s.await := rfl
@[simp] theorem markDirty_tickPending (s : State) : (s.markDirty).tickPending = s.tickPending := rfl
@[simp] theorem markDirty_fault (s : State) : (s.markDirty).fault = s.fault := rfl
@[simp] theorem markDirty_font (s : State) : (s.markDirty).font = s.font := rfl
@[simp] theorem markDirty_inputs (s : State) : (s.markDirty).inputs = s.inputs := rfl
@[simp] theorem markDirty_activations (s : State) : (s.markDirty).activations = s.activations := rfl
@[simp] theorem markDirty_rnd (s : State) : (s.markDirty).rnd = s.rnd := rfl
@[simp] theorem markDirty_reg (s : State) (q : Reg) : (s.markDirty).reg q = s.reg q := rfl
@[simp] theorem markDirty_readByte (s : State) (k : Nat) : (s.markDirty).readByte k = s.readByte k := rfl
@[simp] theorem markDirty_pcSeq (s : State) : (s.markDirty).pcSeq = s.pcSeq := rfl
@[simp] theorem markDirty_effectiveAddr (s : State) (k : Nat) : effectiveAddr (s.markDirty) k = effectiveAddr s k := rfl

/-! ### withPc -/

@[simp] theorem withPc_v (s : State) (a : Addr) : (s.withPc a).v = s.v := rfl
@[simp] theorem withPc_pc (s : State) (a : Addr) : (s.withPc a).pc = a := rfl
@[simp] theorem withPc_i (s : State) (a : Addr) : (s.withPc a).i = s.i := rfl
@[simp] theorem withPc_sp (s : State) (a : Addr) : (s.withPc a).sp = s.sp := rfl
@[simp] theorem withPc_stack (s : State) (a : Addr) : (s.withPc a).stack = s.stack := rfl
@[simp] theorem withPc_dt (s : State) (a : Addr) : (s.withPc a).dt = s.dt := rfl
@[simp] theorem withPc_st (s : State) (a : Addr) : (s.withPc a).st = s.st := rfl
@[simp] theorem withPc_mem (s : State) (a : Addr) : (s.withPc a).mem = s.mem := rfl
@[simp] theorem withPc_fb (s : State) (a : Addr) : (s.withPc a).fb = s.fb := rfl
@[simp] theorem withPc_keypad (s : State) (a : Addr) : (s.withPc a).keypad = s.keypad := rfl
@[simp] theorem withPc_dirty (s : State) (a : Addr) : (s.withPc a).dirty = s.dirty := rfl
@[simp] theorem withPc_await (s : State) (a : Addr) : (s.withPc a).await = s.await := rfl
@[simp] theorem withPc_tickPending (s : State) (a : Addr) : (s.withPc a).tickPending = s.tickPending := rfl
@[simp] theorem withPc_fault (s : State) (a : Addr) : (s.withPc a).fault = s.fault := rfl
@[simp] theorem withPc_font (s : State) (a : Addr) : (s.withPc a).font = s.font := rfl
@[simp] theorem withPc_inputs (s : State) (a : Addr) : (s.withPc a).inputs = s.inputs := rfl
@[simp] theorem withPc_activations (s : State) (a : Addr) : (s.withPc a).activations = s.activations := rfl
@[simp] theorem withPc_rnd (s : State) (a : Addr) : (s.withPc a).rnd = s.rnd := rfl
@[simp] theorem withPc_reg (s : State) (a : Addr) (q : Reg) : (s.withPc a).reg q = s.reg q := rfl
@[simp] theorem withPc_readByte (s : State) (a : Addr) (k : Nat) : (s.withPc a).readByte k = s.readByte k := rfl
@[simp] theorem withPc_effectiveAddr (s : State) (a : Addr) (k : Nat) : effectiveAddr (s.withPc a) k = effectiveAddr s k := rfl

/-! ### writeByte -/

@[simp] theorem writeByte_v (s : State) (a : Nat) (b : Byte) : (s.writeByte a b).v = s.v := rfl
@[simp] theorem writeByte_pc (s : State) (a : Nat) (b : Byte) : (s.writeByte a b).pc = s.pc := rfl
@[simp] theorem writeByte_i (s : State) (a : Nat) (b : Byte) : (s.writeByte a b).i = s.i := rfl
@[simp] theorem writeByte_sp (s : State) (a : Nat) (b : Byte) : (s.writeByte a b).sp = s.sp := rfl
@[simp] theorem writeByte_stack (s : State) (a : Nat) (b : Byte) : (s.writeByte a b).stack = s.stack := rfl
@[simp] theorem writeByte_dt (s : State) (a : Nat) (b : Byte) : (s.writeByte a b).dt = s.dt := rfl
@[simp] theorem writeByte_st (s : State) (a : Nat) (b : Byte) : (s.writeByte a b).st = s.st := rfl
@[simp] theorem writeByte_mem (s : State) (a : Nat) (b : Byte) : (s.writeByte a b).mem = Memory.write s.font s.mem a b := rfl
@[simp] theorem writeByte_fb (s : State) (a : Nat) (b : Byte) : (s.writeByte a b).fb = s.fb := rfl
@[simp] theorem writeByte_keypad (s : State) (a : Nat) (b : Byte) : (s.writeByte a b).keypad = s.keypad := rfl
@[simp] theorem writeByte_dirty (s : State) (a : Nat) (b : Byte) : (s.writeByte a b).dirty = s.dirty := rfl
@[simp] theorem writeByte_await (s : State) (a : Nat) (b : Byte) : (s.writeByte a b).await = s.await := rfl
@[simp] theorem writeByte_tickPending (s : State) (a : Nat) (b : Byte) : (s.writeByte a b).tickPending = s.tickPending := rfl
@[simp] theorem writeByte_fault (s : State) (a : Nat) (b : Byte) : (s.writeByte a b).fault = s.fault := rfl
@[simp] theorem writeByte_font (s : State) (a : Nat) (b : Byte) : (s.writeByte a b).font = s.font := rfl
@[simp] theorem writeByte_inputs (s : State) (a : Nat) (b : Byte) : (s.writeByte a b).inputs = s.inputs := rfl
@[simp] theorem writeByte_activations (s : State) (a : Nat) (b : Byte) : (s.writeByte a b).activations = s.activations := rfl
@[simp] theorem writeByte_rnd (s : State) (a : Nat) (b : Byte) : (s.writeByte a b).rnd = s.rnd := rfl
@[simp] theorem writeByte_reg (s : State) (a : Nat) (b : Byte) (q : Reg) : (s.writeByte a b).reg q = s.reg q := rfl
@[simp] theorem writeByte_pcSeq (s : State) (a : Nat) (b : Byte) : (s.writeByte a b).pcSeq = s.pcSeq := rfl
@[simp] theorem writeByte_effectiveAddr (s : State) (a : Nat) (b : Byte) (k : Nat) : effectiveAddr (s.writeByte a b) k = effectiveAddr s k := rfl

/-! ### pushReturn -/

@[simp] theorem pushReturn_v (s : State) (a : Addr) (h : s.sp.val < 16) : (pushReturn a s h).v = s.v := rfl
@[simp] theorem pushReturn_pc (s : State) (a : Addr) (h : s.sp.val < 16) : (pushReturn a s h).pc = s.pc := rfl
@[simp] theorem pushReturn_i (s : State) (a : Addr) (h : s.sp.val < 16) : (pushReturn a s h).i = s.i := rfl
@[simp] theorem pushReturn_sp (s : State) (a : Addr) (h : s.sp.val < 16) : (pushReturn a s h).sp = ⟨s.sp.val + 1, by omega⟩ := rfl
@[simp] theorem pushReturn_stack (s : State) (a : Addr) (h : s.sp.val < 16) : (pushReturn a s h).stack = s.stack.set s.sp.val a h := rfl
@[simp] theorem pushReturn_dt (s : State) (a : Addr) (h : s.sp.val < 16) : (pushReturn a s h).dt = s.dt := rfl
@[simp] theorem pushReturn_st (s : State) (a : Addr) (h : s.sp.val < 16) : (pushReturn a s h).st = s.st := rfl
@[simp] theorem pushReturn_mem (s : State) (a : Addr) (h : s.sp.val < 16) : (pushReturn a s h).mem = s.mem := rfl
@[simp] theorem pushReturn_fb (s : State) (a : Addr) (h : s.sp.val < 16) : (pushReturn a s h).fb = s.fb := rfl
@[simp] theorem pushReturn_keypad (s : State) (a : Addr) (h : s.sp.val < 16) : (pushReturn a s h).keypad = s.keypad := rfl
@[simp] theorem pushReturn_dirty (s : State) (a : Addr) (h : s.sp.val < 16) : (pushReturn a s h).dirty = s.dirty := rfl
@[simp] theorem pushReturn_await (s : State) (a : Addr) (h : s.sp.val < 16) : (pushReturn a s h).await = s.await := rfl
@[simp] theorem pushReturn_tickPending (s : State) (a : Addr) (h : s.sp.val < 16) : (pushReturn a s h).tickPending = s.tickPending := rfl
@[simp] theorem pushReturn_fault (s : State) (a : Addr) (h : s.sp.val < 16) : (pushReturn a s h).fault = s.fault := rfl
@[simp] theorem pushReturn_font (s : State) (a : Addr) (h : s.sp.val < 16) : (pushReturn a s h).font = s.font := rfl
@[simp] theorem pushReturn_inputs (s : State) (a : Addr) (h : s.sp.val < 16) : (pushReturn a s h).inputs = s.inputs := rfl
@[simp] theorem pushReturn_activations (s : State) (a : Addr) (h : s.sp.val < 16) : (pushReturn a s h).activations = s.activations := rfl
@[simp] theorem pushReturn_rnd (s : State) (a : Addr) (h : s.sp.val < 16) : (pushReturn a s h).rnd = s.rnd := rfl
@[simp] theorem pushReturn_reg (s : State) (a : Addr) (h : s.sp.val < 16) (q : Reg) : (pushReturn a s h).reg q = s.reg q := rfl
@[simp] theorem pushReturn_readByte (s : State) (a : Addr) (h : s.sp.val < 16) (k : Nat) : (pushReturn a s h).readByte k = s.readByte k := rfl
@[simp] theorem pushReturn_pcSeq (s : State) (a : Addr) (h : s.sp.val < 16) : (pushReturn a s h).pcSeq = s.pcSeq := rfl
@[simp] theorem pushReturn_effectiveAddr (s : State) (a : Addr) (h : s.sp.val < 16) (k : Nat) : effectiveAddr (pushReturn a s h) k = effectiveAddr s k := rfl

/-! ### dropReturn -/

@[simp] theorem dropReturn_v (s : State) : (dropReturn s).v = s.v := rfl
@[simp] theorem dropReturn_pc (s : State) : (dropReturn s).pc = s.pc := rfl
@[simp] theorem dropReturn_i (s : State) : (dropReturn s).i = s.i := rfl
@[simp] theorem dropReturn_sp (s : State) : (dropReturn s).sp = ⟨s.sp.val - 1, by omega⟩ := rfl
@[simp] theorem dropReturn_stack (s : State) : (dropReturn s).stack = s.stack := rfl
@[simp] theorem dropReturn_dt (s : State) : (dropReturn s).dt = s.dt := rfl
@[simp] theorem dropReturn_st (s : State) : (dropReturn s).st = s.st := rfl
@[simp] theorem dropReturn_mem (s : State) : (dropReturn s).mem = s.mem := rfl
@[simp] theorem dropReturn_fb (s : State) : (dropReturn s).fb = s.fb := rfl
@[simp] theorem dropReturn_keypad (s : State) : (dropReturn s).keypad = s.keypad := rfl
@[simp] theorem dropReturn_dirty (s : State) : (dropReturn s).dirty = s.dirty := rfl
@[simp] theorem dropReturn_await (s : State) : (dropReturn s).await = s.await := rfl
@[simp] theorem dropReturn_tickPending (s : State) : (dropReturn s).tickPending = s.tickPending := rfl
@[simp] theorem dropReturn_fault (s : State) : (dropReturn s).fault = s.fault := rfl
@[simp] theorem dropReturn_font (s : State) : (dropReturn s).font = s.font := rfl
@[simp] theorem dropReturn_inputs (s : State) : (dropReturn s).inputs = s.inputs := rfl
@[simp] theorem dropReturn_activations (s : State) : (dropReturn s).activations = s.activations := rfl
@[simp] theorem dropReturn_rnd (s : State) : (dropReturn s).rnd = s.rnd := rfl
@[simp] theorem dropReturn_reg (s : State) (q : Reg) : (dropReturn s).reg q = s.reg q := rfl
@[simp] theorem dropReturn_readByte (s : State) (k : Nat) : (dropReturn s).readByte k = s.readByte k := rfl
@[simp] theorem dropReturn_pcSeq (s : State) : (dropReturn s).pcSeq = s.pcSeq := rfl
@[simp] theorem dropReturn_effectiveAddr (s : State) (k : Nat) : effectiveAddr (dropReturn s) k = effectiveAddr s k := rfl

/-! ### takeFault -/

@[simp] theorem takeFault_v (s : State) (e : Raise) (w : Option Opcode) : (takeFault e w s).v = s.v := rfl
@[simp] theorem takeFault_pc (s : State) (e : Raise) (w : Option Opcode) : (takeFault e w s).pc = s.pc := rfl
@[simp] theorem takeFault_i (s : State) (e : Raise) (w : Option Opcode) : (takeFault e w s).i = s.i := rfl
@[simp] theorem takeFault_sp (s : State) (e : Raise) (w : Option Opcode) : (takeFault e w s).sp = s.sp := rfl
@[simp] theorem takeFault_stack (s : State) (e : Raise) (w : Option Opcode) : (takeFault e w s).stack = s.stack := rfl
@[simp] theorem takeFault_dt (s : State) (e : Raise) (w : Option Opcode) : (takeFault e w s).dt = s.dt := rfl
@[simp] theorem takeFault_st (s : State) (e : Raise) (w : Option Opcode) : (takeFault e w s).st = s.st := rfl
@[simp] theorem takeFault_mem (s : State) (e : Raise) (w : Option Opcode) : (takeFault e w s).mem = s.mem := rfl
@[simp] theorem takeFault_fb (s : State) (e : Raise) (w : Option Opcode) : (takeFault e w s).fb = s.fb := rfl
@[simp] theorem takeFault_keypad (s : State) (e : Raise) (w : Option Opcode) : (takeFault e w s).keypad = s.keypad := rfl
@[simp] theorem takeFault_dirty (s : State) (e : Raise) (w : Option Opcode) : (takeFault e w s).dirty = s.dirty := rfl
@[simp] theorem takeFault_await (s : State) (e : Raise) (w : Option Opcode) : (takeFault e w s).await = s.await := rfl
@[simp] theorem takeFault_tickPending (s : State) (e : Raise) (w : Option Opcode) : (takeFault e w s).tickPending = s.tickPending := rfl
@[simp] theorem takeFault_fault (s : State) (e : Raise) (w : Option Opcode) : (takeFault e w s).fault = some ⟨e.cause, s.pc, w, e.info⟩ := rfl
@[simp] theorem takeFault_font (s : State) (e : Raise) (w : Option Opcode) : (takeFault e w s).font = s.font := rfl
@[simp] theorem takeFault_inputs (s : State) (e : Raise) (w : Option Opcode) : (takeFault e w s).inputs = s.inputs := rfl
@[simp] theorem takeFault_activations (s : State) (e : Raise) (w : Option Opcode) : (takeFault e w s).activations = s.activations := rfl
@[simp] theorem takeFault_rnd (s : State) (e : Raise) (w : Option Opcode) : (takeFault e w s).rnd = s.rnd := rfl
@[simp] theorem takeFault_reg (s : State) (e : Raise) (w : Option Opcode) (q : Reg) : (takeFault e w s).reg q = s.reg q := rfl
@[simp] theorem takeFault_readByte (s : State) (e : Raise) (w : Option Opcode) (k : Nat) : (takeFault e w s).readByte k = s.readByte k := rfl
@[simp] theorem takeFault_pcSeq (s : State) (e : Raise) (w : Option Opcode) : (takeFault e w s).pcSeq = s.pcSeq := rfl
@[simp] theorem takeFault_effectiveAddr (s : State) (e : Raise) (w : Option Opcode) (k : Nat) : effectiveAddr (takeFault e w s) k = effectiveAddr s k := rfl

/-! ### consumeInput -/

@[simp] theorem consumeInput_v (s : State) : (consumeInput s).v = s.v := rfl
@[simp] theorem consumeInput_pc (s : State) : (consumeInput s).pc = s.pc := rfl
@[simp] theorem consumeInput_i (s : State) : (consumeInput s).i = s.i := rfl
@[simp] theorem consumeInput_sp (s : State) : (consumeInput s).sp = s.sp := rfl
@[simp] theorem consumeInput_stack (s : State) : (consumeInput s).stack = s.stack := rfl
@[simp] theorem consumeInput_dt (s : State) : (consumeInput s).dt = s.dt := rfl
@[simp] theorem consumeInput_st (s : State) : (consumeInput s).st = s.st := rfl
@[simp] theorem consumeInput_mem (s : State) : (consumeInput s).mem = s.mem := rfl
@[simp] theorem consumeInput_fb (s : State) : (consumeInput s).fb = s.fb := rfl
@[simp] theorem consumeInput_keypad (s : State) : (consumeInput s).keypad = s.keypad := rfl
@[simp] theorem consumeInput_dirty (s : State) : (consumeInput s).dirty = s.dirty := rfl
@[simp] theorem consumeInput_await (s : State) : (consumeInput s).await = s.await := rfl
@[simp] theorem consumeInput_tickPending (s : State) : (consumeInput s).tickPending = s.tickPending := rfl
@[simp] theorem consumeInput_fault (s : State) : (consumeInput s).fault = s.fault := rfl
@[simp] theorem consumeInput_font (s : State) : (consumeInput s).font = s.font := rfl
@[simp] theorem consumeInput_inputs (s : State) : (consumeInput s).inputs = s.inputs.tail := rfl
@[simp] theorem consumeInput_activations (s : State) : (consumeInput s).activations = s.activations + 1 := rfl
@[simp] theorem consumeInput_rnd (s : State) : (consumeInput s).rnd = s.rnd := rfl
@[simp] theorem consumeInput_reg (s : State) (q : Reg) : (consumeInput s).reg q = s.reg q := rfl
@[simp] theorem consumeInput_readByte (s : State) (k : Nat) : (consumeInput s).readByte k = s.readByte k := rfl
@[simp] theorem consumeInput_pcSeq (s : State) : (consumeInput s).pcSeq = s.pcSeq := rfl
@[simp] theorem consumeInput_effectiveAddr (s : State) (k : Nat) : effectiveAddr (consumeInput s) k = effectiveAddr s k := rfl

/-! ### sampleInput -/

@[simp] theorem sampleInput_v (s : State) (c : CycleInput) : (sampleInput c s).v = s.v := rfl
@[simp] theorem sampleInput_pc (s : State) (c : CycleInput) : (sampleInput c s).pc = s.pc := rfl
@[simp] theorem sampleInput_i (s : State) (c : CycleInput) : (sampleInput c s).i = s.i := rfl
@[simp] theorem sampleInput_sp (s : State) (c : CycleInput) : (sampleInput c s).sp = s.sp := rfl
@[simp] theorem sampleInput_stack (s : State) (c : CycleInput) : (sampleInput c s).stack = s.stack := rfl
@[simp] theorem sampleInput_dt (s : State) (c : CycleInput) : (sampleInput c s).dt = s.dt := rfl
@[simp] theorem sampleInput_st (s : State) (c : CycleInput) : (sampleInput c s).st = s.st := rfl
@[simp] theorem sampleInput_mem (s : State) (c : CycleInput) : (sampleInput c s).mem = s.mem := rfl
@[simp] theorem sampleInput_fb (s : State) (c : CycleInput) : (sampleInput c s).fb = s.fb := rfl
@[simp] theorem sampleInput_keypad (s : State) (c : CycleInput) : (sampleInput c s).keypad = c.keys := rfl
@[simp] theorem sampleInput_dirty (s : State) (c : CycleInput) : (sampleInput c s).dirty = false := rfl
@[simp] theorem sampleInput_await (s : State) (c : CycleInput) : (sampleInput c s).await = s.await := rfl
@[simp] theorem sampleInput_tickPending (s : State) (c : CycleInput) : (sampleInput c s).tickPending = (s.tickPending || c.tick) := rfl
@[simp] theorem sampleInput_fault (s : State) (c : CycleInput) : (sampleInput c s).fault = s.fault := rfl
@[simp] theorem sampleInput_font (s : State) (c : CycleInput) : (sampleInput c s).font = s.font := rfl
@[simp] theorem sampleInput_inputs (s : State) (c : CycleInput) : (sampleInput c s).inputs = s.inputs := rfl
@[simp] theorem sampleInput_activations (s : State) (c : CycleInput) : (sampleInput c s).activations = s.activations := rfl
@[simp] theorem sampleInput_rnd (s : State) (c : CycleInput) : (sampleInput c s).rnd = c.rnd := rfl
@[simp] theorem sampleInput_reg (s : State) (c : CycleInput) (q : Reg) : (sampleInput c s).reg q = s.reg q := rfl
@[simp] theorem sampleInput_readByte (s : State) (c : CycleInput) (k : Nat) : (sampleInput c s).readByte k = s.readByte k := rfl
@[simp] theorem sampleInput_pcSeq (s : State) (c : CycleInput) : (sampleInput c s).pcSeq = s.pcSeq := rfl
@[simp] theorem sampleInput_effectiveAddr (s : State) (c : CycleInput) (k : Nat) : effectiveAddr (sampleInput c s) k = effectiveAddr s k := rfl

/-! ### Registers -/

theorem setReg_reg (s : State) (r q : Reg) (b : Byte) : (s.setReg r b).reg q = if q = r then b else s.reg q := by
  by_cases h : q = r
  · subst h; simp [State.reg]
  · have : r.toNat ≠ q.toNat := fun e => h (BitVec.eq_of_toNat_eq e.symm)
    simp [State.reg, Vector.getElem_set_ne, this, h]

@[simp] theorem setReg_reg_same (s : State) (r : Reg) (b : Byte) : (s.setReg r b).reg r = b := by
  simp [setReg_reg]

theorem setReg_reg_other (s : State) (r q : Reg) (b : Byte) (h : q ≠ r) : (s.setReg r b).reg q = s.reg q := by
  simp [setReg_reg, h]

end Sys2Proof.Machine
end

