-- ==== Sys2Proof/Laws/Memory.lean ====
section
/-! SUPPORT. The laws of memory: a read after a write, and that every operation keeps the canonical form. -/

namespace Sys2Proof.Machine

theorem Memory.read_unlist (font : Font) (m : Memory) (a q : Nat) :
    Memory.read font (Memory.unlist m a) q = if q = a then Memory.unlisted font a else Memory.read font m q := by
  induction m with
  | nil => by_cases hq : q = a <;> simp [Memory.unlist, Memory.read, hq]
  | cons c m ih =>
    obtain ⟨k, c⟩ := c
    simp only [Memory.unlist]
    split
    · rename_i hk
      subst hk
      rw [ih]
      by_cases hq : q = k <;> simp [Memory.read, hq]
    · rename_i hk
      simp only [Memory.read, ih]
      by_cases hq : q = k
      · subst hq; simp [hk]
      · simp [hq]

/-- Reading any address where `a` is not listed anywhere. -/
theorem Memory.read_insert (font : Font) (m : Memory) (a q : Nat) (b : Byte) (h : ∀ c ∈ m, c.1 ≠ a) :
    Memory.read font (Memory.insert m a b) q = if q = a then b else Memory.read font m q := by
  induction m with
  | nil => by_cases hq : q = a <;> simp [Memory.insert, Memory.read, hq]
  | cons c m ih =>
    obtain ⟨k, c⟩ := c
    have hk : k ≠ a := h (k, c) (by simp)
    simp only [Memory.insert]
    split
    · by_cases hq : q = a <;> simp [Memory.read, hq]
    · simp only [Memory.read, ih (fun d hd => h d (List.mem_cons_of_mem _ hd))]
      by_cases hq : q = k
      · subst hq; simp [hk]
      · simp [hq]

theorem Memory.not_mem_unlist (m : Memory) (a : Nat) : ∀ c ∈ Memory.unlist m a, c.1 ≠ a := by
  induction m with
  | nil => simp [Memory.unlist]
  | cons c m ih =>
    obtain ⟨k, c⟩ := c
    simp only [Memory.unlist]
    split
    · exact ih
    · intro d hd
      rcases List.mem_cons.1 hd with rfl | hd
      · assumption
      · exact ih d hd

/-- A byte written, read back at any address, in any memory. -/
theorem Memory.read_write (font : Font) (m : Memory) (a q : Nat) (b : Byte) :
    Memory.read font (Memory.write font m a b) q = if q = a then b else Memory.read font m q := by
  unfold Memory.write
  split
  · rename_i hb
    rw [Memory.read_unlist, ← hb]
  · rw [Memory.read_insert _ _ _ _ _ (Memory.not_mem_unlist m a), Memory.read_unlist]
    by_cases hq : q = a <;> simp [hq]

/-- A weaker bound on the addresses. -/
theorem Memory.wfFrom_mono (font : Font) (m : Memory) (lo lo' : Nat) (h : Memory.wfFrom font lo m = true)
    (hl : lo' ≤ lo) : Memory.wfFrom font lo' m = true := by
  cases m with
  | nil => rfl
  | cons c m =>
    simp only [Memory.wfFrom, Bool.and_eq_true, decide_eq_true_eq] at h ⊢
    exact ⟨⟨⟨by omega, h.1.1.2⟩, h.1.2⟩, h.2⟩

theorem Memory.wfFrom_unlist (font : Font) (m : Memory) (lo a : Nat) (h : Memory.wfFrom font lo m = true) :
    Memory.wfFrom font lo (Memory.unlist m a) = true := by
  induction m generalizing lo with
  | nil => rfl
  | cons c m ih =>
    obtain ⟨k, c⟩ := c
    simp only [Memory.wfFrom, Bool.and_eq_true, decide_eq_true_eq] at h
    simp only [Memory.unlist]
    split
    · exact Memory.wfFrom_mono font _ (k + 1) lo (ih (k + 1) h.2) (by omega)
    · simp only [Memory.wfFrom, Bool.and_eq_true, decide_eq_true_eq]
      exact ⟨h.1, ih (k + 1) h.2⟩

theorem Memory.wfFrom_insert (font : Font) (m : Memory) (lo a : Nat) (b : Byte) (h : Memory.wfFrom font lo m = true)
    (hn : ∀ c ∈ m, c.1 ≠ a) (hb : b ≠ Memory.unlisted font a) (hlo : lo ≤ a) (ha : a < Config.memSize) :
    Memory.wfFrom font lo (Memory.insert m a b) = true := by
  induction m generalizing lo with
  | nil => simp [Memory.insert, Memory.wfFrom, hb, hlo, ha]
  | cons c m ih =>
    obtain ⟨k, c⟩ := c
    have hk : k ≠ a := hn (k, c) (by simp)
    simp only [Memory.wfFrom, Bool.and_eq_true, decide_eq_true_eq] at h
    simp only [Memory.insert]
    split
    · rename_i hak
      simp [Memory.wfFrom, hlo, ha, hb, h, Nat.succ_le_of_lt hak]
    · simp only [Memory.wfFrom, Bool.and_eq_true, decide_eq_true_eq]
      exact ⟨h.1, ih (k + 1) h.2 (fun d hd => hn d (List.mem_cons_of_mem _ hd)) (by omega)⟩

/-- A write inside the memory array keeps the canonical form. -/
theorem Memory.wf_write (font : Font) (m : Memory) (a : Nat) (b : Byte) (h : Memory.wf font m = true)
    (ha : a < Config.memSize) : Memory.wf font (Memory.write font m a b) = true := by
  have hu := Memory.wfFrom_unlist font m 0 a h
  unfold Memory.write
  split
  · exact hu
  · rename_i hb
    exact Memory.wfFrom_insert font _ 0 a b hu (Memory.not_mem_unlist m a) hb (Nat.zero_le a) ha

theorem reset_wf : Memory.wf State.reset.font State.reset.mem = true := rfl

/-- The state's memory is canonical. -/
abbrev State.MemWf (s : State) : Prop := Memory.wf s.font s.mem = true

theorem writeByte_readByte (s : State) (a q : Nat) (b : Byte) :
    (s.writeByte a b).readByte q = if q = a then b else s.readByte q :=
  Memory.read_write s.font s.mem a q b

theorem writeByte_memWf (s : State) (a : Nat) (b : Byte) (h : s.MemWf) (ha : a < Config.memSize) :
    (s.writeByte a b).MemWf :=
  Memory.wf_write s.font s.mem a b h ha

end Sys2Proof.Machine
end

