-- ==== Sys2Proof/Laws/Ops.lean ====
section
/-! SUPPORT. One lemma per shared operation of Machine/Ops.lean and Machine/Cycle.lean: everything it can do. -/

namespace Sys2Proof.Machine

/-! ### Frames -/

theorem Unchanged.trans {s t u : State} {p : Part} (h : Unchanged s t p) (h' : Unchanged t u p) : Unchanged s u p := by
  cases p with
  | memory => exact fun a => (h' a).trans (h a)
  | screen => exact fun r c => (h' r c).trans (h r c)
  | stack => exact ⟨h'.1.trans h.1, h'.2.trans h.2⟩
  | inputs => exact ⟨h'.1.trans h.1, h'.2.1.trans h.2.1, h'.2.2.trans h.2.2⟩
  | _ => exact Eq.trans h' h

theorem Frame.trans {ws ws' : List Reg} {ps ps' : List Part} {s t u : State} (h : Frame ws ps s t)
    (h' : Frame ws' ps' t u) : Frame (ws ++ ws') (ps ++ ps') s u := by
  refine ⟨fun r hr => ?_, fun p hp => ?_⟩
  · simp only [List.mem_append, not_or] at hr
    exact (h'.1 r hr.2).trans (h.1 r hr.1)
  · simp only [List.mem_append, not_or] at hp
    exact (h.2 p hp.1).trans (h'.2 p hp.2)

/-- A frame that allows more. -/
theorem Frame.mono {ws ws' : List Reg} {ps ps' : List Part} {s t : State} (h : Frame ws ps s t)
    (hw : ∀ r ∈ ws, r ∈ ws') (hp : ∀ p ∈ ps, p ∈ ps') : Frame ws' ps' s t :=
  ⟨fun r hr => h.1 r fun hm => hr (hw r hm), fun p hq => h.2 p fun hm => hq (hp p hm)⟩

/-! ### SetPC and RangeCheck -/

theorem setPc_of_le (a : Nat) (s : State) (h : a ≤ 0xFFF) : setPc a s = .ok (s.withPc (BitVec.ofNat 12 a)) := by
  simp [setPc, Nat.not_lt.2 h]

theorem setPc_of_gt (a : Nat) (s : State) (h : a > 0xFFF) : setPc a s = .error (raisePc a) := by
  simp [setPc, h]

/-- An address is its own 12-bit value: `SetPC` of one cannot fault. -/
theorem setPc_addr (a : Addr) (s : State) : setPc a.toNat s = .ok (s.withPc a) := by
  rw [setPc_of_le _ _ (by have := a.isLt; omega)]
  simp

theorem ofNat12_toNat (a : Nat) (h : a ≤ 0xFFF) : (BitVec.ofNat 12 a).toNat = a := by
  simp only [BitVec.toNat_ofNat]; omega

theorem rangeCheck_of_fits (a n : Nat) (r : Except Raise State) (h : n = 0 ∨ a + n - 1 ≤ 0xFFF) :
    rangeCheck a n r = r := by
  unfold rangeCheck
  rw [if_neg]
  rintro ⟨h1, h2⟩
  rcases h with h | h
  · omega
  · exact absurd h2 (Nat.not_lt.2 h)

/-- A span that begins in the memory array and passes 0xFFF names 0x1000 (R238). -/
theorem rangeCheck_of_passes (a n : Nat) (r : Except Raise State) (ha : a ≤ 0xFFF) (hn : 0 < n)
    (h : a + n - 1 > 0xFFF) : rangeCheck a n r = .error (raiseAddress 0x1000) := by
  unfold rangeCheck
  rw [if_pos ⟨hn, h⟩, Nat.max_eq_right (by simp only [Config.maxAddr]; omega)]

theorem addr_le (a : Addr) : a.toNat ≤ 0xFFF := by have := a.isLt; omega

/-! ### Completing an instruction -/

@[simp] theorem complete_ok (i : Instr) (s t : State) : complete i s (.ok t) = .next t := rfl

@[simp] theorem complete_error (i : Instr) (s : State) (e : Raise) :
    complete i s (.error e) = .next (takeFault e (some (encode i)) s) := rfl

/-- Every meaning is a rule completed in the state it began in. -/
theorem exec_complete (i : Instr) (s : State) : ∃ r, exec i s = complete i s r := by
  cases i <;> exact ⟨_, rfl⟩

/-- What an instruction's rule can end in: its new state, or a fault taken in the state it began in. -/
theorem complete_cases (i : Instr) (s t : State) (r : Except Raise State) (h : complete i s r = .next t) :
    r = .ok t ∨ ∃ e, r = .error e ∧ t = takeFault e (some (encode i)) s := by
  cases r with
  | ok u => left; cases h; rfl
  | error e => right; cases h; exact ⟨e, rfl, rfl⟩

/-- A taken fault changes nothing but the record. -/
theorem takeFault_faulted (i : Instr) (s : State) (e : Raise) :
    Faulted i e.cause e.info s (takeFault e (some (encode i)) s) := by
  refine ⟨rfl, fun r _ => rfl, fun p hp => ?_⟩
  cases p <;> simp_all [Unchanged]

/-- A rule that ends with `SetPC(pc_seq)`, where the sequential successor exists. -/
theorem complete_setPc_of_le (i : Instr) (s t : State) (a : Nat) (h : a ≤ 0xFFF) :
    complete i s (setPc a t) = .next (t.withPc (BitVec.ofNat 12 a)) := by
  rw [setPc_of_le a t h]; rfl

/-- A rule whose `SetPC` does not fit faults with that value (R12, R225). -/
theorem complete_setPc_of_gt (i : Instr) (s t : State) (a : Nat) (h : a > 0xFFF) :
    ∃ u, complete i s (setPc a t) = .next u ∧ Faulted i .pcOutOfRange (some a) s u := by
  rw [setPc_of_gt a t h]
  exact ⟨_, rfl, takeFault_faulted i s (raisePc a)⟩

/-- A rule that raises a fault. -/
theorem complete_raise (i : Instr) (s : State) (e : Raise) :
    ∃ u, complete i s (.error e) = .next u ∧ Faulted i e.cause e.info s u :=
  ⟨_, rfl, takeFault_faulted i s e⟩

/-! ### The loops of Fx55 and Fx65 -/

theorem storeRegs_succ (n : Nat) (s : State) :
    storeRegs (n + 1) s
      = (storeRegs n s).writeByte (effectiveAddr (storeRegs n s) n) ((storeRegs n s).reg (regOfIndex n)) := by
  simp [storeRegs, List.range_succ]

/-- The stores of Fx55 change the memory alone. -/
theorem storeRegs_only_mem (n : Nat) (s : State) : storeRegs n s = { s with mem := (storeRegs n s).mem } := by
  induction n with
  | zero => rfl
  | succ n ih => rw [storeRegs_succ, ih]; rfl

theorem storeRegs_readByte (n : Nat) (s : State) (a : Nat) :
    (storeRegs n s).readByte a
      = if s.i.toNat ≤ a ∧ a < s.i.toNat + n then s.reg (regOfIndex (a - s.i.toNat)) else s.readByte a := by
  induction n with
  | zero => simp [storeRegs]
  | succ n ih =>
    have hi : (storeRegs n s).i = s.i := by rw [storeRegs_only_mem]
    have hr : (storeRegs n s).reg (regOfIndex n) = s.reg (regOfIndex n) := by rw [storeRegs_only_mem]; rfl
    rw [storeRegs_succ, writeByte_readByte, ih, hr, effectiveAddr, hi]
    by_cases h : a = s.i.toNat + n
    · subst h; simp
    · have : (s.i.toNat ≤ a ∧ a < s.i.toNat + n) ↔ (s.i.toNat ≤ a ∧ a < s.i.toNat + (n + 1)) := by omega
      simp [h, this]

theorem storeRegs_memWf (n : Nat) (s : State) (h : s.MemWf) (hn : s.i.toNat + n ≤ Config.memSize) :
    (storeRegs n s).MemWf := by
  induction n with
  | zero => exact h
  | succ n ih =>
    rw [storeRegs_succ]
    refine writeByte_memWf _ _ _ (ih (by omega)) ?_
    rw [storeRegs_only_mem]
    simp only [effectiveAddr]
    omega

theorem loadRegs_succ (n : Nat) (s : State) :
    loadRegs (n + 1) s
      = (loadRegs n s).setReg (regOfIndex n) ((loadRegs n s).readByte (effectiveAddr (loadRegs n s) n)) := by
  simp [loadRegs, List.range_succ]

/-- The loads of Fx65 change the registers alone. -/
theorem loadRegs_only_v (n : Nat) (s : State) : loadRegs n s = { s with v := (loadRegs n s).v } := by
  induction n with
  | zero => rfl
  | succ n ih => rw [loadRegs_succ, ih]; rfl

theorem loadRegs_reg (n : Nat) (s : State) (q : Reg) (hn : n ≤ 16) :
    (loadRegs n s).reg q = if q.toNat < n then s.readByte (s.i.toNat + q.toNat) else s.reg q := by
  induction n with
  | zero => simp [loadRegs]
  | succ n ih =>
    have hb : (loadRegs n s).readByte (effectiveAddr (loadRegs n s) n) = s.readByte (s.i.toNat + n) := by
      rw [loadRegs_only_v]; rfl
    have hq : q = regOfIndex n ↔ q.toNat = n := by
      constructor
      · rintro rfl; simp only [regOfIndex, BitVec.toNat_ofNat]; omega
      · intro h; apply BitVec.eq_of_toNat_eq; simp only [regOfIndex, BitVec.toNat_ofNat]; omega
    rw [loadRegs_succ, setReg_reg, hb, ih (by omega)]
    by_cases h : q.toNat = n
    · simp [hq, h]
    · have : q.toNat < n ↔ q.toNat < n + 1 := by omega
      simp [hq, h, this]

/-! ### The stores of Fx33 and of a ROM load -/

theorem storeBcd_readByte (b : Byte) (s : State) (a : Nat) :
    (storeBcd b s).readByte a
      = if a = s.i.toNat + 2 then bcdOnes b else if a = s.i.toNat + 1 then bcdTens b
        else if a = s.i.toNat then bcdHundreds b else s.readByte a := by
  simp only [storeBcd, writeByte_readByte, effectiveAddr]
  simp

theorem storeBytes_only_mem (a : Nat) (bs : List Byte) (s : State) :
    storeBytes a bs s = { s with mem := (storeBytes a bs s).mem } := by
  induction bs generalizing a s with
  | nil => rfl
  | cons b bs ih => rw [storeBytes, ih]; rfl

theorem storeBytes_readByte (a : Nat) (bs : List Byte) (s : State) (q : Nat) :
    (storeBytes a bs s).readByte q
      = if h : a ≤ q ∧ q < a + bs.length then bs[q - a]'(by omega) else s.readByte q := by
  induction bs generalizing a s with
  | nil =>
    have : ¬ (a ≤ q ∧ q < a + ([] : List Byte).length) := by simp
    rw [dif_neg this]; rfl
  | cons b bs ih =>
    rw [storeBytes, ih, writeByte_readByte]
    by_cases h : a + 1 ≤ q ∧ q < a + 1 + bs.length
    · have h' : a ≤ q ∧ q < a + (b :: bs).length := by simp only [List.length_cons]; omega
      rw [dif_pos h, dif_pos h', List.getElem_cons, dif_neg (by omega)]
      simp only [show q - a - 1 = q - (a + 1) by omega]
    · rw [dif_neg h]
      by_cases hq : q = a
      · subst hq; simp
      · have h' : ¬ (a ≤ q ∧ q < a + (b :: bs).length) := by simp only [List.length_cons]; omega
        rw [dif_neg h', if_neg hq]

/-! ### The cycle -/

theorem countDown_toNat (t : Byte) : (countDown t).toNat = t.toNat - 1 := by
  have := t.isLt
  unfold countDown
  split
  · simp only [BitVec.toNat_ofNat]; omega
  · omega

theorem timerStep_of_tick (s : State) (h : s.tickPending = true) :
    timerStep s = { s with dt := countDown s.dt, st := countDown s.st, tickPending := false } := by
  simp [timerStep, h]

theorem timerStep_of_no_tick (s : State) (h : s.tickPending = false) : timerStep s = s := by
  simp [timerStep, h]

/-- The least pressed key, when it is found. -/
theorem lowestKey_eq_some (s : State) (k : Nat) (hk : k < 16) (hd : s.keyDown k = true)
    (hl : ∀ j, j < k → s.keyDown j = false) : lowestKey s = some k := by
  unfold lowestKey
  rw [List.find?_range_eq_some]
  simpa [hk, hd] using hl

theorem lowestKey_eq_none (s : State) (h : ∀ k, k < 16 → s.keyDown k = false) : lowestKey s = none := by
  unfold lowestKey
  rw [List.find?_eq_none]
  intro k hk
  simp [h k (List.mem_range.1 hk)]

theorem keyDown_of_lt (s : State) (k : Nat) (hk : k < 16) : s.keyDown k = s.keypad[k] := by
  simp [State.keyDown, hk]

end Sys2Proof.Machine
end

