-- ==== Sys2Proof/Laws/Cycle.lean ====
section
/-! SUPPORT. What each part of a cycle can do, said once: the end of an instruction's rule, the three kinds of
activation, the fetch and step 4. -/

namespace Sys2Proof.Machine

/-! ### The end of an instruction's rule -/

theorem flagByte_toNat (b : Bool) : (flagByte b).toNat = if b then 1 else 0 := by cases b <;> rfl

theorem regOfIndex_toNat (r : Reg) : regOfIndex r.toNat = r := by simp [regOfIndex]

/-- Inversion of `setPc`: when it does not raise. -/
theorem setPc_eq_ok {a : Nat} {t u : State} (h : setPc a t = .ok u) : a ≤ 0xFFF ∧ u = t.withPc (BitVec.ofNat 12 a) := by
  unfold setPc at h
  split at h
  · cases h
  · cases h
    exact ⟨by simp only [Config.maxAddr] at *; omega, rfl⟩

/-- Inversion of `setPc`: when it raises. -/
theorem setPc_eq_error {a : Nat} {t : State} {e : Raise} (h : setPc a t = .error e) : a > 0xFFF ∧ e = raisePc a := by
  unfold setPc at h
  split at h
  · cases h; exact ⟨by assumption, rfl⟩
  · cases h

theorem rangeCheck_eq_ok {a n : Nat} {r : Except Raise State} {u : State} (h : rangeCheck a n r = .ok u) : r = .ok u := by
  unfold rangeCheck at h
  split at h
  · cases h
  · exact h

theorem rangeCheck_eq_error {a n : Nat} {r : Except Raise State} {e : Raise} (ha : a ≤ 0xFFF)
    (h : rangeCheck a n r = .error e) : e = raiseAddress 0x1000 ∨ r = .error e := by
  by_cases hc : n > 0 ∧ a + n - 1 > 0xFFF
  · rw [rangeCheck_of_passes _ _ _ ha hc.1 hc.2] at h; cases h; exact .inl rfl
  · rw [rangeCheck_of_fits _ _ _ (by omega)] at h; exact .inr h

theorem keyCheck_eq_ok {k : Nat} {r : Except Raise State} {u : State} (h : keyCheck k r = .ok u) : k ≤ 15 ∧ r = .ok u := by
  unfold keyCheck at h
  split at h
  · cases h
  · exact ⟨by omega, h⟩

/-- A skip's end: the address past one or two words, or the fault when the memory ends before it. -/
theorem skipTarget_eq (taken : Bool) (s : State) : skipTarget taken s = s.pc.toNat + if taken then 4 else 2 := by
  simp only [skipTarget, State.pcSeq]; split <;> rfl

theorem successor_of_not_taken (i : Instr) (s : State) (h : skipTaken i s = false) : successor i s = s.pcSeq := by
  simp [successor, h, State.pcSeq]

/-- The address a skip goes to is the successor that the fault conditions check. -/
theorem skipTarget_eq_successor (i : Instr) (s : State) (taken : Bool) (h : skipTaken i s = taken) :
    skipTarget taken s = successor i s := by
  rw [skipTarget_eq, successor, h]

/-- `rangeCheck` as one test: R10's span condition, and the value R238 gives the fault. -/
theorem rangeCheck_eq_ite (a n : Nat) (r : Except Raise State) (h : a ≤ 0xFFF) :
    rangeCheck a n r = if n > 0 ∧ a + n - 1 > 0xFFF then .error (raiseAddress 0x1000) else r := by
  split
  · rename_i h'; exact rangeCheck_of_passes _ _ _ h h'.1 h'.2
  · exact rangeCheck_of_fits _ _ _ (by omega)

/-! ### What the stores leave -/

theorem Frame.sameMemoryOutside {ws : List Reg} {ps : List Part} {s t : State} (h : Frame ws ps s t)
    (hm : Part.memory ∉ ps) (base n : Nat) : SameMemoryOutside base n s t :=
  fun a _ => h.2 .memory hm a

theorem storeBcd_sameMemoryOutside (b : Byte) (s : State) : SameMemoryOutside s.i.toNat 3 s (storeBcd b s) := by
  intro a ha
  rw [storeBcd_readByte, if_neg (by omega), if_neg (by omega), if_neg (by omega)]

theorem storeRegs_sameMemoryOutside (n : Nat) (s : State) : SameMemoryOutside s.i.toNat n s (storeRegs n s) := by
  intro a ha
  rw [storeRegs_readByte, if_neg (by omega)]

/-! ### The stores keep the canonical form -/

theorem storeBcd_only_mem (b : Byte) (s : State) : storeBcd b s = { s with mem := (storeBcd b s).mem } := rfl

theorem storeBcd_memWf (b : Byte) (s : State) (h : s.MemWf) (hi : s.i.toNat + 3 ≤ Config.memSize) :
    (storeBcd b s).MemWf := by
  unfold storeBcd effectiveAddr
  refine writeByte_memWf _ _ _ (writeByte_memWf _ _ _ (writeByte_memWf _ _ _ h ?_) ?_) ?_ <;>
    simp only [Config.memSize] at * <;> omega

theorem storeBytes_memWf (a : Nat) (bs : List Byte) (s : State) (h : s.MemWf) (ha : a + bs.length ≤ Config.memSize) :
    (storeBytes a bs s).MemWf := by
  induction bs generalizing a s with
  | nil => exact h
  | cons b bs ih =>
    rw [List.length_cons] at ha
    exact ih _ _ (writeByte_memWf _ _ _ h (by omega)) (by omega)

theorem placeByte_memWf (a : Nat) (b : Byte) (s : State) (h : s.MemWf) : (placeByte a b s).MemWf := by
  unfold placeByte
  split
  · exact writeByte_memWf _ _ _ h (by simp only [Config.maxAddr, Config.memSize] at *; omega)
  · exact h

theorem placeWord_memWf (op : Opcode) (s : State) (h : s.MemWf) : (placeWord op s).MemWf :=
  placeByte_memWf _ _ _ (placeByte_memWf _ _ _ h)

/-! ### The three kinds of activation -/

theorem step_of_halted {s : State} (hf : s.fault ≠ none) : step s = .next (consumeInput s) := by
  unfold step
  rw [if_pos (by cases h : s.fault <;> simp_all)]

theorem step_of_awaiting {s : State} {d : Reg} (hf : s.fault = none) (ha : s.await = .awaitingKey d) :
    step s = .next (awaitStep d (beginCycle s)) := by
  unfold step
  rw [if_neg (by simp [hf])]
  simp only [show (beginCycle s).await = s.await from rfl, ha]

theorem step_of_running {s : State} (hf : s.fault = none) (ha : s.await = .running) :
    step s = match fetchInstr (beginCycle s) with
      | .error (r, opcode) => .next (takeFault r opcode (beginCycle s))
      | .ok i => finishCycle (exec i (beginCycle s)) := by
  unfold step
  rw [if_neg (by simp [hf])]
  simp only [show (beginCycle s).await = s.await from rfl, ha] <;> rfl

/-- Step 1 writes no part the spec's later steps compare, whatever the inputs are. -/
theorem beginCycle_parts (s : State) (p : Part) (hp : p ∉ [Part.keypad, .dirty, .tick, .inputs]) :
    Unchanged s (beginCycle s) p := by
  cases p <;> simp_all [Unchanged, beginCycle]

/-! ### The fetch -/

theorem fetchInstr_of_top (s : State) (h : s.pc.toNat + 1 > 0xFFF) :
    fetchInstr s = .error (raiseAddress 0x1000, none) := by
  unfold fetchInstr
  rw [if_pos h]

theorem fetchInstr_of_ok (s : State) (i : Instr) (h : s.pc.toNat + 1 ≤ 0xFFF) (hd : decode (fetchWord s) = .ok i) :
    fetchInstr s = .ok i := by
  unfold fetchInstr
  rw [if_neg (by simp only [Config.maxAddr]; omega), hd]

theorem fetchInstr_of_error (s : State) (e : DecodeError) (h : s.pc.toNat + 1 ≤ 0xFFF)
    (hd : decode (fetchWord s) = .error e) : fetchInstr s = .error (raiseDecodeFailure, some (fetchWord s)) := by
  unfold fetchInstr
  rw [if_neg (by simp only [Config.maxAddr]; omega), hd]

/-! ### Step 4 -/

theorem endCycle_of_fault (t : State) (h : t.fault ≠ none) : endCycle t = t := by
  cases hf : t.fault <;> simp_all [endCycle]

theorem endCycle_of_no_fault (t : State) (h : t.fault = none) : endCycle t = timerStep t := by simp [endCycle, h]

/-- Step 4 writes the timers and the latch only. -/
theorem timerStep_frame (t : State) : Frame [] [.tick, .delay, .sound] t (timerStep t) := by
  by_cases h : t.tickPending = true
  · rw [timerStep_of_tick t h]
    exact ⟨fun r _ => rfl, fun p hp => by cases p <;> simp_all [Unchanged]; all_goals intros; rfl⟩
  · rw [timerStep_of_no_tick t (by simpa using h)]
    exact ⟨fun r _ => rfl, fun p _ => by cases p <;> simp [Unchanged]⟩

theorem timerStep_tickPending (t : State) : (timerStep t).tickPending = false := by
  cases h : t.tickPending <;> simp [timerStep, h]

theorem timerStep_dt (t : State) : (timerStep t).dt.toNat = t.dt.toNat - if t.tickPending then 1 else 0 := by
  cases h : t.tickPending <;> simp [timerStep, h, countDown_toNat]

theorem timerStep_st (t : State) : (timerStep t).st.toNat = t.st.toNat - if t.tickPending then 1 else 0 := by
  cases h : t.tickPending <;> simp [timerStep, h, countDown_toNat]

end Sys2Proof.Machine
end

