-- ==== Sys2Proof/Laws/Display.lean ====
section
/-! SUPPORT. The pixels of the drawing loop: which cells it flips, and what its collision bit says. -/

namespace Sys2Proof.Machine

theorem pixel_flipPixel (fb : Framebuffer) (row r : Fin 32) (col c : Fin 64) :
    pixel (flipPixel fb row col) r c = (pixel fb r c ^^ (decide (r = row) && decide (c = col))) := by
  unfold pixel flipPixel
  by_cases h : r = row
  · subst h
    by_cases hc : c = col
    · subst hc; simp
    · have : ¬ (c : Nat) = col := fun e => hc (Fin.ext e)
      simp [hc, this]
  · have : ¬ (row : Nat) = r := fun e => h (Fin.ext e.symm)
    simp [h, this, Vector.getElem_set_ne]

@[simp] theorem pixel_clearScreen (row : Fin 32) (col : Fin 64) : pixel clearScreen row col = false := by
  simp [pixel, clearScreen]

/-- The cell lies under a sprite bit of 1 among the first `m` bits of sprite row `r`. -/
def underBits (m cx cy r : Nat) (row : Byte) (R : Fin 32) (C : Fin 64) : Prop :=
  R = spriteRow cy r ∧ ∃ b, b < m ∧ C = spriteCol cx b ∧ spriteBit row b = true

/-- The cell lies under a sprite bit of 1 among the first `n` rows. -/
def underRows (s : State) (cx cy n : Nat) (R : Fin 32) (C : Fin 64) : Prop :=
  ∃ r, r < n ∧ underBits 8 cx cy r (s.readByte (effectiveAddr s r)) R C

/-- `c'` is `c` with exactly the cells of `P` flipped and every collision with one of them noted. -/
def Flipped (P : Fin 32 → Fin 64 → Prop) (c c' : Canvas) : Prop :=
  (∀ R C, pixel c'.fb R C ≠ pixel c.fb R C ↔ P R C) ∧
  (c'.collision = true ↔ c.collision = true ∨ ∃ R C, P R C ∧ pixel c.fb R C = true)

theorem Flipped.none (c : Canvas) (P : Fin 32 → Fin 64 → Prop) (h : ∀ R C, ¬ P R C) : Flipped P c c := by
  refine ⟨fun R C => by simp [h R C], ?_⟩
  simp [h]

/-- Two disjoint sets of flips, one after the other. -/
theorem Flipped.trans {P Q : Fin 32 → Fin 64 → Prop} {c c' c'' : Canvas} (h : Flipped P c c') (h' : Flipped Q c' c'')
    (hd : ∀ R C, P R C → ¬ Q R C) : Flipped (fun R C => P R C ∨ Q R C) c c'' := by
  obtain ⟨h1, h2⟩ := h
  obtain ⟨h3, h4⟩ := h'
  have keep : ∀ R C, Q R C → pixel c'.fb R C = pixel c.fb R C := fun R C hq => by
    by_contra hne
    exact hd R C ((h1 R C).1 hne) hq
  constructor
  · intro R C
    have a := h1 R C
    have b := h3 R C
    have d := hd R C
    cases e1 : pixel c.fb R C <;> cases e2 : pixel c'.fb R C <;> cases e3 : pixel c''.fb R C <;> simp_all
  · rw [h4, h2]
    constructor
    · rintro ((h | ⟨R, C, hp, hx⟩) | ⟨R, C, hq, hx⟩)
      · exact .inl h
      · exact .inr ⟨R, C, .inl hp, hx⟩
      · exact .inr ⟨R, C, .inr hq, by rw [← keep R C hq]; exact hx⟩
    · rintro (h | ⟨R, C, hp | hq, hx⟩)
      · exact .inl (.inl h)
      · exact .inl (.inr ⟨R, C, hp, hx⟩)
      · exact .inr ⟨R, C, hq, by rw [keep R C hq]; exact hx⟩

theorem Flipped.congr {P Q : Fin 32 → Fin 64 → Prop} {c c' : Canvas} (h : Flipped P c c')
    (he : ∀ R C, P R C ↔ Q R C) : Flipped Q c c' := by
  have : P = Q := funext fun R => funext fun C => propext (he R C)
  exact this ▸ h

theorem drawBit_flipped (cx cy r : Nat) (row : Byte) (c : Canvas) (b : Nat) :
    Flipped (fun R C => R = spriteRow cy r ∧ C = spriteCol cx b ∧ spriteBit row b = true) c
      (drawBit cx cy r row c b) := by
  unfold drawBit
  by_cases h : spriteBit row b = true
  · rw [if_pos h]
    constructor
    · intro R C
      simp only [pixel_flipPixel, h, and_true]
      by_cases h1 : R = spriteRow cy r <;> by_cases h2 : C = spriteCol cx b <;> simp [h1, h2]
    · simp only [Bool.or_eq_true, h, and_true]
      constructor
      · rintro (hc | hc)
        · exact .inl hc
        · exact .inr ⟨_, _, ⟨rfl, rfl⟩, hc⟩
      · rintro (hc | ⟨R, C, ⟨rfl, rfl⟩, hx⟩)
        · exact .inl hc
        · exact .inr hx
  · rw [if_neg h]
    exact Flipped.none c _ fun R C hp => h hp.2.2

/-- The eight columns of a sprite are distinct (R192). -/
theorem spriteCol_inj (cx a b : Nat) (ha : a < 8) (hb : b < 8) (h : spriteCol cx a = spriteCol cx b) : a = b := by
  simp only [spriteCol, Fin.mk.injEq] at h
  omega

/-- The rows of a sprite of at most 32 rows are distinct (R192). -/
theorem spriteRow_inj (cy a b : Nat) (ha : a < 32) (hb : b < 32) (h : spriteRow cy a = spriteRow cy b) : a = b := by
  simp only [spriteRow, Fin.mk.injEq] at h
  omega

theorem drawBits_flipped (cx cy r : Nat) (row : Byte) (c : Canvas) (m : Nat) (hm : m ≤ 8) :
    Flipped (underBits m cx cy r row) c ((List.range m).foldl (drawBit cx cy r row) c) := by
  induction m with
  | zero => exact Flipped.none c _ fun R C h => by obtain ⟨_, b, hb, _⟩ := h; omega
  | succ m ih =>
    rw [List.range_succ, List.foldl_append]
    refine ((ih (by omega)).trans (drawBit_flipped cx cy r row _ m) ?_).congr ?_
    · rintro R C ⟨_, b, hb, h1, _⟩ ⟨_, h2, _⟩
      have := spriteCol_inj cx b m (by omega) (by omega) (h1.symm.trans h2)
      omega
    · intro R C
      constructor
      · rintro (⟨hR, b, hb, h1, h2⟩ | ⟨hR, h1, h2⟩)
        · exact ⟨hR, b, by omega, h1, h2⟩
        · exact ⟨hR, m, by omega, h1, h2⟩
      · rintro ⟨hR, b, hb, h1, h2⟩
        by_cases h : b = m
        · subst h; exact .inr ⟨hR, h1, h2⟩
        · exact .inl ⟨hR, b, by omega, h1, h2⟩

/-- The whole drawing loop flips exactly the cells under a sprite bit of 1, and notes exactly their collisions with
the cells that were on before it. -/
theorem drawRows_flipped (s : State) (cx cy n : Nat) (c : Canvas) (hn : n ≤ 32) :
    Flipped (underRows s cx cy n) c (drawRows s cx cy n c) := by
  unfold drawRows
  induction n with
  | zero => exact Flipped.none c _ fun R C h => by obtain ⟨r, hr, _⟩ := h; omega
  | succ n ih =>
    rw [List.range_succ, List.foldl_append]
    refine ((ih (by omega)).trans (drawBits_flipped cx cy n (s.readByte (effectiveAddr s n)) _ 8 (by omega)) ?_).congr ?_
    · rintro R C ⟨r, hr, h1, _⟩ ⟨h2, _⟩
      have := spriteRow_inj cy r n (by omega) (by omega) (h1.symm.trans h2)
      omega
    · intro R C
      constructor
      · rintro (⟨r, hr, h⟩ | h)
        · exact ⟨r, by omega, h⟩
        · exact ⟨n, by omega, h⟩
      · rintro ⟨r, hr, h⟩
        by_cases e : r = n
        · subst e; exact .inr h
        · exact .inl ⟨r, by omega, h⟩

end Sys2Proof.Machine
end

