-- ==== Sys2Proof/Laws/Encoding.lean ====
section
/-! SUPPORT. The fields of a word and the words of the formats, as numbers: a field of a built word is the field it
was built from. -/

namespace Sys2Proof

theorem append_toNat {n m : Nat} (a : BitVec n) (b : BitVec m) : (a ++ b).toNat = a.toNat * 2 ^ m + b.toNat := by
  rw [BitVec.toNat_append, ← Nat.shiftLeft_add_eq_or_of_lt b.isLt, Nat.shiftLeft_eq]

theorem fieldH_toNat (op : Opcode) : (fieldH op).toNat = op.toNat / 4096 := by
  have := op.isLt
  simp only [fieldH, BitVec.extractLsb'_toNat, Nat.shiftRight_eq_div_pow]
  omega

theorem fieldX_toNat (op : Opcode) : (fieldX op).toNat = op.toNat / 256 % 16 := by
  simp only [fieldX, BitVec.extractLsb'_toNat, Nat.shiftRight_eq_div_pow]

theorem fieldY_toNat (op : Opcode) : (fieldY op).toNat = op.toNat / 16 % 16 := by
  simp only [fieldY, BitVec.extractLsb'_toNat, Nat.shiftRight_eq_div_pow]

theorem fieldN_toNat (op : Opcode) : (fieldN op).toNat = op.toNat % 16 := by
  simp only [fieldN, BitVec.extractLsb'_toNat, Nat.shiftRight_eq_div_pow]
  omega

theorem fieldKK_toNat (op : Opcode) : (fieldKK op).toNat = op.toNat % 256 := by
  simp only [fieldKK, BitVec.extractLsb'_toNat, Nat.shiftRight_eq_div_pow]
  omega

theorem fieldNNN_toNat (op : Opcode) : (fieldNNN op).toNat = op.toNat % 4096 := by
  simp only [fieldNNN, BitVec.extractLsb'_toNat, Nat.shiftRight_eq_div_pow]
  omega

theorem wordXK_toNat (h : Nibble) (x : Reg) (kk : Byte) :
    (wordXK h x kk).toNat = h.toNat * 4096 + (x.toNat * 256 + kk.toNat) := by
  unfold wordXK
  rw [append_toNat, append_toNat]
  norm_num

theorem wordXYN_toNat (h : Nibble) (x y : Reg) (n : Nibble) :
    (wordXYN h x y n).toNat = h.toNat * 4096 + (x.toNat * 256 + (y.toNat * 16 + n.toNat)) := by
  unfold wordXYN
  rw [append_toNat, append_toNat, append_toNat]
  norm_num

theorem wordA_toNat (h : Nibble) (nnn : Addr) : (wordA h nnn).toNat = h.toNat * 4096 + nnn.toNat := by
  unfold wordA
  rw [append_toNat]
  norm_num

/-! ### The fields of a built word -/

section Fields
variable (h : Nibble) (x y : Reg) (n : Nibble) (kk : Byte) (nnn : Addr)

@[simp] theorem fieldH_wordXK : fieldH (wordXK h x kk) = h := by
  apply BitVec.eq_of_toNat_eq
  have := x.isLt; have := kk.isLt
  rw [fieldH_toNat, wordXK_toNat]; omega

@[simp] theorem fieldX_wordXK : fieldX (wordXK h x kk) = x := by
  apply BitVec.eq_of_toNat_eq
  have := x.isLt; have := kk.isLt
  rw [fieldX_toNat, wordXK_toNat]; omega

@[simp] theorem fieldKK_wordXK : fieldKK (wordXK h x kk) = kk := by
  apply BitVec.eq_of_toNat_eq
  have := kk.isLt
  rw [fieldKK_toNat, wordXK_toNat]; omega

@[simp] theorem fieldH_wordXYN : fieldH (wordXYN h x y n) = h := by
  apply BitVec.eq_of_toNat_eq
  have := x.isLt; have := y.isLt; have := n.isLt
  rw [fieldH_toNat, wordXYN_toNat]; omega

@[simp] theorem fieldX_wordXYN : fieldX (wordXYN h x y n) = x := by
  apply BitVec.eq_of_toNat_eq
  have := x.isLt; have := y.isLt; have := n.isLt
  rw [fieldX_toNat, wordXYN_toNat]; omega

@[simp] theorem fieldY_wordXYN : fieldY (wordXYN h x y n) = y := by
  apply BitVec.eq_of_toNat_eq
  have := y.isLt; have := n.isLt
  rw [fieldY_toNat, wordXYN_toNat]; omega

@[simp] theorem fieldN_wordXYN : fieldN (wordXYN h x y n) = n := by
  apply BitVec.eq_of_toNat_eq
  have := n.isLt
  rw [fieldN_toNat, wordXYN_toNat]; omega

@[simp] theorem fieldH_wordA : fieldH (wordA h nnn) = h := by
  apply BitVec.eq_of_toNat_eq
  have := nnn.isLt
  rw [fieldH_toNat, wordA_toNat]; omega

@[simp] theorem fieldNNN_wordA : fieldNNN (wordA h nnn) = nnn := by
  apply BitVec.eq_of_toNat_eq
  have := nnn.isLt
  rw [fieldNNN_toNat, wordA_toNat]; omega

end Fields

/-! ### A word from its fields -/

theorem wordA_fields (op : Opcode) : wordA (fieldH op) (fieldNNN op) = op := by
  apply BitVec.eq_of_toNat_eq
  rw [wordA_toNat, fieldH_toNat, fieldNNN_toNat]; omega

theorem wordXK_fields (op : Opcode) : wordXK (fieldH op) (fieldX op) (fieldKK op) = op := by
  apply BitVec.eq_of_toNat_eq
  rw [wordXK_toNat, fieldH_toNat, fieldX_toNat, fieldKK_toNat]; omega

theorem wordXYN_fields (op : Opcode) : wordXYN (fieldH op) (fieldX op) (fieldY op) (fieldN op) = op := by
  apply BitVec.eq_of_toNat_eq
  rw [wordXYN_toNat, fieldH_toNat, fieldX_toNat, fieldY_toNat, fieldN_toNat]; omega

end Sys2Proof
end

