-- ==== Sys2Proof/Laws/PerInstr.lean ====
section
/-! SUPPORT. The per-instruction family TableRow: the word of an instruction matches its own row of the opcode map and
lies outside the decode-failure space (R85, R86, R91). -/

namespace Sys2Proof.Laws.TableRow

/-- The word of the instruction matches its row and is well formed. -/
def Statement (i : Instr) : Prop := matchesRow (encode i) i = true ∧ wellFormedWord (encode i) = true

theorem wordXK_and (h a : Nibble) (x b : Reg) (kk c : Byte) :
    wordXK h x kk &&& wordXK a b c = wordXK (h &&& a) (x &&& b) (kk &&& c) := by
  have e : (x ++ kk) &&& (b ++ c) = (x &&& b) ++ (kk &&& c) := BitVec.and_append
  unfold wordXK
  rw [← e]
  exact BitVec.and_append

theorem wordXYN_eq_wordXK (h : Nibble) (x y : Reg) (n : Nibble) : wordXYN h x y n = wordXK h x (y ++ n) := rfl

theorem and_family (op : Opcode) : op &&& 0xF000#16 = wordXK (fieldH op) 0 0 := by
  conv_lhs => rw [← wordXK_fields op, show (0xF000#16 : Opcode) = wordXK (BitVec.allOnes 4) 0 0 from rfl, wordXK_and, BitVec.and_allOnes]
  simp

theorem and_family_byte (op : Opcode) : op &&& 0xF0FF#16 = wordXK (fieldH op) 0 (fieldKK op) := by
  conv_lhs =>
    rw [← wordXK_fields op, show (0xF0FF#16 : Opcode) = wordXK (BitVec.allOnes 4) 0 (BitVec.allOnes 8) from rfl, wordXK_and,
      BitVec.and_allOnes, BitVec.and_allOnes]
  simp

theorem and_family_nibble (op : Opcode) : op &&& 0xF00F#16 = wordXYN (fieldH op) 0 0 (fieldN op) := by
  have e : (fieldY op ++ fieldN op) &&& (0#4 ++ BitVec.allOnes 4) = 0#4 ++ fieldN op := by
    rw [BitVec.and_append, BitVec.and_allOnes]; simp
  conv_lhs =>
    rw [← wordXYN_fields op, show (0xF00F#16 : Opcode) = wordXYN (BitVec.allOnes 4) 0 0 (BitVec.allOnes 4) from rfl,
      wordXYN_eq_wordXK, wordXYN_eq_wordXK, wordXK_and]
  rw [wordXYN_eq_wordXK, BitVec.and_allOnes, show fieldX op &&& 0 = 0 from BitVec.and_zero]
  exact congr_arg (wordXK _ 0) e

/-- Well-formedness by the word's fields. -/
theorem wellFormedWord_fields (op : Opcode) : wellFormedWord op =
    match (fieldH op).toNat with
    | 0x0 => wellFormedFamily0 op
    | 0x5 => wellFormedFamily59 (fieldN op).toNat
    | 0x9 => wellFormedFamily59 (fieldN op).toNat
    | 0x8 => wellFormedFamily8 (fieldN op).toNat
    | 0xE => wellFormedFamilyE (fieldKK op).toNat
    | 0xF => wellFormedFamilyF (fieldKK op).toNat
    | _ => true := by
  rw [fieldH_toNat, fieldN_toNat, fieldKK_toNat]; rfl

theorem cls : Statement .cls := ⟨rfl, rfl⟩

theorem ret : Statement .ret := ⟨rfl, rfl⟩

theorem jp (nnn : Addr) : Statement (.jp nnn) := by
  constructor
  · simp [matchesRow, encode, opcodeRow, and_family, -BitVec.ofNat_eq_ofNat]; rfl
  · simp [wellFormedWord_fields, encode]

theorem call (nnn : Addr) : Statement (.call nnn) := by
  constructor
  · simp [matchesRow, encode, opcodeRow, and_family, -BitVec.ofNat_eq_ofNat]; rfl
  · simp [wellFormedWord_fields, encode]

theorem seImm (x : Reg) (kk : Byte) : Statement (.seImm x kk) := by
  constructor
  · simp [matchesRow, encode, opcodeRow, and_family, -BitVec.ofNat_eq_ofNat]; rfl
  · simp [wellFormedWord_fields, encode]

theorem sneImm (x : Reg) (kk : Byte) : Statement (.sneImm x kk) := by
  constructor
  · simp [matchesRow, encode, opcodeRow, and_family, -BitVec.ofNat_eq_ofNat]; rfl
  · simp [wellFormedWord_fields, encode]

theorem seReg (x y : Reg) : Statement (.seReg x y) := by
  constructor
  · simp [matchesRow, encode, opcodeRow, and_family_nibble, -BitVec.ofNat_eq_ofNat]; rfl
  · simp [wellFormedWord_fields, encode]; rfl

theorem ldImm (x : Reg) (kk : Byte) : Statement (.ldImm x kk) := by
  constructor
  · simp [matchesRow, encode, opcodeRow, and_family, -BitVec.ofNat_eq_ofNat]; rfl
  · simp [wellFormedWord_fields, encode]

theorem addImm (x : Reg) (kk : Byte) : Statement (.addImm x kk) := by
  constructor
  · simp [matchesRow, encode, opcodeRow, and_family, -BitVec.ofNat_eq_ofNat]; rfl
  · simp [wellFormedWord_fields, encode]

theorem ldReg (x y : Reg) : Statement (.ldReg x y) := by
  constructor
  · simp [matchesRow, encode, opcodeRow, and_family_nibble, -BitVec.ofNat_eq_ofNat]; rfl
  · simp [wellFormedWord_fields, encode]; rfl

theorem orReg (x y : Reg) : Statement (.orReg x y) := by
  constructor
  · simp [matchesRow, encode, opcodeRow, and_family_nibble, -BitVec.ofNat_eq_ofNat]; rfl
  · simp [wellFormedWord_fields, encode]; rfl

theorem andReg (x y : Reg) : Statement (.andReg x y) := by
  constructor
  · simp [matchesRow, encode, opcodeRow, and_family_nibble, -BitVec.ofNat_eq_ofNat]; rfl
  · simp [wellFormedWord_fields, encode]; rfl

theorem xorReg (x y : Reg) : Statement (.xorReg x y) := by
  constructor
  · simp [matchesRow, encode, opcodeRow, and_family_nibble, -BitVec.ofNat_eq_ofNat]; rfl
  · simp [wellFormedWord_fields, encode]; rfl

theorem addReg (x y : Reg) : Statement (.addReg x y) := by
  constructor
  · simp [matchesRow, encode, opcodeRow, and_family_nibble, -BitVec.ofNat_eq_ofNat]; rfl
  · simp [wellFormedWord_fields, encode]; rfl

theorem subReg (x y : Reg) : Statement (.subReg x y) := by
  constructor
  · simp [matchesRow, encode, opcodeRow, and_family_nibble, -BitVec.ofNat_eq_ofNat]; rfl
  · simp [wellFormedWord_fields, encode]; rfl

theorem shr (x y : Reg) : Statement (.shr x y) := by
  constructor
  · simp [matchesRow, encode, opcodeRow, and_family_nibble, -BitVec.ofNat_eq_ofNat]; rfl
  · simp [wellFormedWord_fields, encode]; rfl

theorem subnReg (x y : Reg) : Statement (.subnReg x y) := by
  constructor
  · simp [matchesRow, encode, opcodeRow, and_family_nibble, -BitVec.ofNat_eq_ofNat]; rfl
  · simp [wellFormedWord_fields, encode]; rfl

theorem shl (x y : Reg) : Statement (.shl x y) := by
  constructor
  · simp [matchesRow, encode, opcodeRow, and_family_nibble, -BitVec.ofNat_eq_ofNat]; rfl
  · simp [wellFormedWord_fields, encode]; rfl

theorem sneReg (x y : Reg) : Statement (.sneReg x y) := by
  constructor
  · simp [matchesRow, encode, opcodeRow, and_family_nibble, -BitVec.ofNat_eq_ofNat]; rfl
  · simp [wellFormedWord_fields, encode]; rfl

theorem ldI (nnn : Addr) : Statement (.ldI nnn) := by
  constructor
  · simp [matchesRow, encode, opcodeRow, and_family, -BitVec.ofNat_eq_ofNat]; rfl
  · simp [wellFormedWord_fields, encode]

theorem jpV0 (nnn : Addr) : Statement (.jpV0 nnn) := by
  constructor
  · simp [matchesRow, encode, opcodeRow, and_family, -BitVec.ofNat_eq_ofNat]; rfl
  · simp [wellFormedWord_fields, encode]

theorem rnd (x : Reg) (kk : Byte) : Statement (.rnd x kk) := by
  constructor
  · simp [matchesRow, encode, opcodeRow, and_family, -BitVec.ofNat_eq_ofNat]; rfl
  · simp [wellFormedWord_fields, encode]

theorem drw (x y : Reg) (n : Nibble) : Statement (.drw x y n) := by
  constructor
  · simp [matchesRow, encode, opcodeRow, and_family, -BitVec.ofNat_eq_ofNat]; rfl
  · simp [wellFormedWord_fields, encode]

theorem skp (x : Reg) : Statement (.skp x) := by
  constructor
  · simp [matchesRow, encode, opcodeRow, and_family_byte, -BitVec.ofNat_eq_ofNat]; rfl
  · simp [wellFormedWord_fields, encode]; rfl

theorem sknp (x : Reg) : Statement (.sknp x) := by
  constructor
  · simp [matchesRow, encode, opcodeRow, and_family_byte, -BitVec.ofNat_eq_ofNat]; rfl
  · simp [wellFormedWord_fields, encode]; rfl

theorem ldVxDt (x : Reg) : Statement (.ldVxDt x) := by
  constructor
  · simp [matchesRow, encode, opcodeRow, and_family_byte, -BitVec.ofNat_eq_ofNat]; rfl
  · simp [wellFormedWord_fields, encode]; rfl

theorem ldVxK (x : Reg) : Statement (.ldVxK x) := by
  constructor
  · simp [matchesRow, encode, opcodeRow, and_family_byte, -BitVec.ofNat_eq_ofNat]; rfl
  · simp [wellFormedWord_fields, encode]; rfl

theorem ldDtVx (x : Reg) : Statement (.ldDtVx x) := by
  constructor
  · simp [matchesRow, encode, opcodeRow, and_family_byte, -BitVec.ofNat_eq_ofNat]; rfl
  · simp [wellFormedWord_fields, encode]; rfl

theorem ldStVx (x : Reg) : Statement (.ldStVx x) := by
  constructor
  · simp [matchesRow, encode, opcodeRow, and_family_byte, -BitVec.ofNat_eq_ofNat]; rfl
  · simp [wellFormedWord_fields, encode]; rfl

theorem addI (x : Reg) : Statement (.addI x) := by
  constructor
  · simp [matchesRow, encode, opcodeRow, and_family_byte, -BitVec.ofNat_eq_ofNat]; rfl
  · simp [wellFormedWord_fields, encode]; rfl

theorem ldF (x : Reg) : Statement (.ldF x) := by
  constructor
  · simp [matchesRow, encode, opcodeRow, and_family_byte, -BitVec.ofNat_eq_ofNat]; rfl
  · simp [wellFormedWord_fields, encode]; rfl

theorem ldB (x : Reg) : Statement (.ldB x) := by
  constructor
  · simp [matchesRow, encode, opcodeRow, and_family_byte, -BitVec.ofNat_eq_ofNat]; rfl
  · simp [wellFormedWord_fields, encode]; rfl

theorem ldMemVx (x : Reg) : Statement (.ldMemVx x) := by
  constructor
  · simp [matchesRow, encode, opcodeRow, and_family_byte, -BitVec.ofNat_eq_ofNat]; rfl
  · simp [wellFormedWord_fields, encode]; rfl

theorem ldVxMem (x : Reg) : Statement (.ldVxMem x) := by
  constructor
  · simp [matchesRow, encode, opcodeRow, and_family_byte, -BitVec.ofNat_eq_ofNat]; rfl
  · simp [wellFormedWord_fields, encode]; rfl

end Sys2Proof.Laws.TableRow
end

