-- ==== Sys2Proof/Tests/Slice0.lean ====
section
/-! SUPPORT. Tests: words written out from the encodings of spec/30_encoding.md, one-step vectors of
spec/95_test_vectors.md (each named in its comment), and for every statement that has hypotheses a concrete state and
operands that meet them. -/

namespace Sys2Proof.Tests

open Sys2Proof Sys2Proof.Machine

/-! ### Well-formedness: each check refuses an ill-formed term -/

theorem test_wf_family0 : wellFormedWord 0x0000#16 = false ∧ wellFormedWord 0x01E0#16 = false := by decide

theorem test_wf_family5 : wellFormedWord 0x5011#16 = false := by decide

theorem test_wf_family9 : wellFormedWord 0x9011#16 = false := by decide

theorem test_wf_family8 : wellFormedWord 0x8008#16 = false ∧ wellFormedWord 0x800F#16 = false := by decide

theorem test_wf_familyE : wellFormedWord 0xE09F#16 = false := by decide

theorem test_wf_familyF : wellFormedWord 0xF000#16 = false ∧ wellFormedWord 0xF0FF#16 = false := by decide

theorem test_wf_rom : wellFormedRom (List.replicate 3585 0) = false ∧ wellFormedRom (List.replicate 3584 0) = true := by
  simp only [wellFormedRom, List.length_replicate]; decide

/-! ### Decoding: one word of each constructor, bit by bit (R83, R86; x = 1010, y = 0101, n = 0011, kk = 11000101,
nnn = 001000110100) -/

theorem test_decode_cls : decode 0b0000000011100000#16 = .ok .cls := by decide

theorem test_decode_ret : decode 0b0000000011101110#16 = .ok .ret := by decide

theorem test_decode_jp : decode 0b0001001000110100#16 = .ok (.jp 0x234) := by decide

theorem test_decode_call : decode 0b0010001000110100#16 = .ok (.call 0x234) := by decide

theorem test_decode_seImm : decode 0b0011101011000101#16 = .ok (.seImm 0xA 0xC5) := by decide

theorem test_decode_sneImm : decode 0b0100101011000101#16 = .ok (.sneImm 0xA 0xC5) := by decide

theorem test_decode_seReg : decode 0b0101101001010000#16 = .ok (.seReg 0xA 0x5) := by decide

theorem test_decode_ldImm : decode 0b0110101011000101#16 = .ok (.ldImm 0xA 0xC5) := by decide

theorem test_decode_addImm : decode 0b0111101011000101#16 = .ok (.addImm 0xA 0xC5) := by decide

theorem test_decode_ldReg : decode 0b1000101001010000#16 = .ok (.ldReg 0xA 0x5) := by decide

theorem test_decode_orReg : decode 0b1000101001010001#16 = .ok (.orReg 0xA 0x5) := by decide

theorem test_decode_andReg : decode 0b1000101001010010#16 = .ok (.andReg 0xA 0x5) := by decide

theorem test_decode_xorReg : decode 0b1000101001010011#16 = .ok (.xorReg 0xA 0x5) := by decide

theorem test_decode_addReg : decode 0b1000101001010100#16 = .ok (.addReg 0xA 0x5) := by decide

theorem test_decode_subReg : decode 0b1000101001010101#16 = .ok (.subReg 0xA 0x5) := by decide

theorem test_decode_shr : decode 0b1000101001010110#16 = .ok (.shr 0xA 0x5) := by decide

theorem test_decode_subnReg : decode 0b1000101001010111#16 = .ok (.subnReg 0xA 0x5) := by decide

theorem test_decode_shl : decode 0b1000101001011110#16 = .ok (.shl 0xA 0x5) := by decide

theorem test_decode_sneReg : decode 0b1001101001010000#16 = .ok (.sneReg 0xA 0x5) := by decide

theorem test_decode_ldI : decode 0b1010001000110100#16 = .ok (.ldI 0x234) := by decide

theorem test_decode_jpV0 : decode 0b1011001000110100#16 = .ok (.jpV0 0x234) := by decide

theorem test_decode_rnd : decode 0b1100101011000101#16 = .ok (.rnd 0xA 0xC5) := by decide

theorem test_decode_drw : decode 0b1101101001010011#16 = .ok (.drw 0xA 0x5 0x3) := by decide

theorem test_decode_skp : decode 0b1110101010011110#16 = .ok (.skp 0xA) := by decide

theorem test_decode_sknp : decode 0b1110101010100001#16 = .ok (.sknp 0xA) := by decide

theorem test_decode_ldVxDt : decode 0b1111101000000111#16 = .ok (.ldVxDt 0xA) := by decide

theorem test_decode_ldVxK : decode 0b1111101000001010#16 = .ok (.ldVxK 0xA) := by decide

theorem test_decode_ldDtVx : decode 0b1111101000010101#16 = .ok (.ldDtVx 0xA) := by decide

theorem test_decode_ldStVx : decode 0b1111101000011000#16 = .ok (.ldStVx 0xA) := by decide

theorem test_decode_addI : decode 0b1111101000011110#16 = .ok (.addI 0xA) := by decide

theorem test_decode_ldF : decode 0b1111101000101001#16 = .ok (.ldF 0xA) := by decide

theorem test_decode_ldB : decode 0b1111101000110011#16 = .ok (.ldB 0xA) := by decide

theorem test_decode_ldMemVx : decode 0b1111101001010101#16 = .ok (.ldMemVx 0xA) := by decide

theorem test_decode_ldVxMem : decode 0b1111101001100101#16 = .ok (.ldVxMem 0xA) := by decide


/-- T-DEC-1 to T-DEC-6. -/
theorem test_decode_failures :
    [0x0000#16, 0x01E0#16, 0x0123#16, 0x5011#16, 0x9011#16, 0x8008#16, 0x800F#16, 0xE09F#16, 0xF000#16, 0xF0FF#16].all
      (fun op => decide (decode op = .error (.decodeFailure op))) = true := by decide

/-! ### The machine in a test -/

/-- The keys of the list are pressed. -/
def keysDown (ks : List Nat) : Vector Bool 16 := Vector.ofFn (fun k => ks.contains k.val)

/-- The inputs of the vectors' conventions: no key, no tick, rnd = 0xAB. -/
def quiet : CycleInput := { keys := keysDown [], tick := false, rnd := 0xAB }

/-- The same with a tick. -/
def ticked : CycleInput := { quiet with tick := true }

/-- The same with these keys. -/
def pressed (ks : List Nat) : CycleInput := { quiet with keys := keysDown ks }

/-- The reset state with these registers. -/
def withRegs (rs : List (Reg × Byte)) : State := rs.foldl (fun s r => s.setReg r.1 r.2) State.reset

/-- The same with pc and I. -/
def startAt (pc i : Addr) (rs : List (Reg × Byte)) : State := { withRegs rs with pc := pc, i := i }

/-- What one cycle with the inputs on the word at the pc leaves, as seen through `f`. -/
def cycle {α : Type} (c : CycleInput) (w : Nat) (s : State) (f : State → α) : Option α :=
  match step ((s.withFetchWord 16 w).present c) with
  | .next t => some (f t)
  | .fault _ => none
  | .refused _ => none

/-- One cycle with no word placed. -/
def bareCycle {α : Type} (c : CycleInput) (s : State) (f : State → α) : Option α :=
  match step (s.present c) with
  | .next t => some (f t)
  | .fault _ => none
  | .refused _ => none

/-- The host's two questions: the word is decoded, and it runs as the first instruction after reset. -/
theorem test_withFetchWord : decodeTableWord 16 0x6A5C = some (.ldImm 0xA 0x5C) ∧
    cycle quiet 0x6A5C State.reset (fun t => (t.reg 0xA, t.pc)) = some (0x5C, 0x202) := by decide

/-! ### Flow -/

/-- T-FLOW-1. -/
theorem test_jp : cycle quiet 0x1234 State.reset State.pc = some 0x234 := by decide

/-- T-FLOW-3. -/
theorem test_ret : cycle quiet 0x00EE { startAt 0x300 0 [] with sp := 1, stack := State.reset.stack.set 0 0x202 }
    (fun t => (t.pc, t.sp, t.stack[0])) = some (0x202, 0, 0x202) := by decide

/-- T-FLOW-6. -/
theorem test_ret_underflow : cycle quiet 0x00EE State.reset State.fault =
    some (some ⟨.stackUnderflow, 0x200, some 0x00EE, none⟩) := by decide

/-- T-FLOW-4. -/
theorem test_call : cycle quiet 0x2300 { State.reset with sp := 15 } (fun t => (t.pc, t.sp, t.stack[15])) =
    some (0x300, 16, 0x202) := by decide

/-- T-FLOW-7 and T-FLOW-8. -/
theorem test_call_order : cycle quiet 0x2300 (startAt 0xFFE 0 []) State.fault =
      some (some ⟨.pcOutOfRange, 0xFFE, some 0x2300, some 0x1000⟩) ∧
    cycle quiet 0x2300 { startAt 0xFFE 0 [] with sp := 16 } State.fault =
      some (some ⟨.stackOverflow, 0xFFE, some 0x2300, none⟩) := by decide

/-- T-FLOW-10. -/
theorem test_jpV0 : cycle quiet 0xBF00 (withRegs [(0, 0xFF)]) (fun t => (t.pc, t.fault)) = some (0xFFF, none) := by
  decide

/-- T-FLOW-11. -/
theorem test_jpV0_above : cycle quiet 0xBFFF (withRegs [(0, 0xFF)]) (fun t => (t.pc, t.fault)) =
    some (0x200, some ⟨.pcOutOfRange, 0x200, some 0xBFFF, some 0x10FE⟩) := by decide

/-- T-FLOW-12. -/
theorem test_seImm : cycle quiet 0x3012 (withRegs [(0, 0x12)]) State.pc = some 0x204 ∧
    cycle quiet 0x3013 (withRegs [(0, 0x12)]) State.pc = some 0x202 := by decide

/-- T-FLOW-16, and R225's case of a taken skip at 0xFFE. -/
theorem test_seImm_top : cycle quiet 0x3000 (startAt 0xFFC 0 []) State.fault =
      some (some ⟨.pcOutOfRange, 0xFFC, some 0x3000, some 0x1000⟩) ∧
    cycle quiet 0x3001 (startAt 0xFFC 0 []) State.pc = some 0xFFE ∧
    cycle quiet 0x3000 (startAt 0xFFE 0 []) State.fault =
      some (some ⟨.pcOutOfRange, 0xFFE, some 0x3000, some 0x1002⟩) := by decide

/-- T-FLOW-13. -/
theorem test_sneImm : cycle quiet 0x4012 (withRegs [(0, 0x12)]) State.pc = some 0x202 ∧
    cycle quiet 0x4013 (withRegs [(0, 0x12)]) State.pc = some 0x204 := by decide

/-- T-FLOW-14. -/
theorem test_seReg : cycle quiet 0x5010 (withRegs [(0, 1), (1, 1)]) State.pc = some 0x204 ∧
    cycle quiet 0x5010 (withRegs [(0, 1), (1, 2)]) State.pc = some 0x202 := by decide

/-- T-FLOW-15. -/
theorem test_sneReg : cycle quiet 0x9010 (withRegs [(0, 1), (1, 1)]) State.pc = some 0x202 ∧
    cycle quiet 0x9010 (withRegs [(0, 1), (1, 2)]) State.pc = some 0x204 := by decide

/-! ### ALU -/

/-- T-FLOW-17. -/
theorem test_ldImm_top : cycle quiet 0x6001 (startAt 0xFFE 0 []) (fun t => (t.reg 0, t.fault)) =
    some (0, some ⟨.pcOutOfRange, 0xFFE, some 0x6001, some 0x1000⟩) := by decide

/-- T-ALU-2. -/
theorem test_addImm : cycle quiet 0x70FF (withRegs [(0, 2), (0xF, 0x33)]) (fun t => (t.reg 0, t.reg 0xF)) =
    some (0x01, 0x33) := by decide

/-- T-ALU-4. -/
theorem test_ldReg : cycle quiet 0x8010 (withRegs [(0, 0x0C), (1, 0x0A)]) (fun t => (t.reg 0, t.reg 1)) =
    some (0x0A, 0x0A) := by decide

/-- T-ALU-5. -/
theorem test_orReg : cycle quiet 0x8011 (withRegs [(0, 0x0C), (1, 0x0A), (0xF, 1)]) (fun t => (t.reg 0, t.reg 0xF)) =
    some (0x0E, 1) := by decide

/-- T-ALU-6. -/
theorem test_andReg : cycle quiet 0x8012 (withRegs [(0, 0x0C), (1, 0x0A), (0xF, 1)]) (fun t => (t.reg 0, t.reg 0xF)) =
    some (0x08, 1) := by decide

/-- T-ALU-7. -/
theorem test_xorReg : cycle quiet 0x8013 (withRegs [(0, 0x0C), (1, 0x0A), (0xF, 1)]) (fun t => (t.reg 0, t.reg 0xF)) =
    some (0x06, 1) := by decide

/-- S1. -/
theorem test_addReg : cycle quiet 0x8014 (withRegs [(0, 0xFF), (1, 1)]) (fun t => (t.reg 0, t.reg 0xF)) = some (0, 1) ∧
    cycle quiet 0x8014 (withRegs [(0, 0x80), (1, 0x7F)]) (fun t => (t.reg 0, t.reg 0xF)) = some (0xFF, 0) := by decide

/-- T-ALU-8. -/
theorem test_addReg_vf : cycle quiet 0x8F14 (withRegs [(0xF, 0xF0), (1, 0x20)]) (fun t => t.reg 0xF) = some 1 := by decide

/-- S2. -/
theorem test_subReg : cycle quiet 0x8015 (withRegs [(0, 5), (1, 5)]) (fun t => (t.reg 0, t.reg 0xF)) = some (0, 1) ∧
    cycle quiet 0x8015 (withRegs [(0, 3), (1, 5)]) (fun t => (t.reg 0, t.reg 0xF)) = some (0xFE, 0) := by decide

/-- T-ALU-9. -/
theorem test_subReg_vf : cycle quiet 0x8F15 (withRegs [(0xF, 0xF0), (1, 0x20)]) (fun t => t.reg 0xF) = some 1 := by decide

/-- T-ALU-11, with a Vy that is not read (T-DEC-7). -/
theorem test_shr : cycle quiet 0x8026 (withRegs [(0, 5), (2, 0xFF)]) (fun t => (t.reg 0, t.reg 0xF)) = some (2, 1) := by
  decide

/-- T-ALU-12. -/
theorem test_shr_vf : cycle quiet 0x8FF6 (withRegs [(0xF, 5)]) (fun t => t.reg 0xF) = some 0 ∧
    cycle quiet 0x8F06 (withRegs [(0xF, 0x81)]) (fun t => t.reg 0xF) = some 0 := by decide

/-- T-ALU-10. -/
theorem test_subnReg : cycle quiet 0x8017 (withRegs [(0, 3), (1, 5)]) (fun t => (t.reg 0, t.reg 0xF)) = some (2, 1) ∧
    cycle quiet 0x8F17 (withRegs [(0xF, 0x10), (1, 0x20)]) (fun t => t.reg 0xF) = some 1 := by decide

/-- T-ALU-13. -/
theorem test_shl : cycle quiet 0x800E (withRegs [(0, 0x81)]) (fun t => (t.reg 0, t.reg 0xF)) = some (2, 1) ∧
    cycle quiet 0x800E (withRegs [(0, 0x80)]) (fun t => (t.reg 0, t.reg 0xF)) = some (0, 1) := by decide

/-- T-ALU-14. -/
theorem test_shl_vf : cycle quiet 0x8F0E (withRegs [(0xF, 0x81)]) (fun t => t.reg 0xF) = some 2 ∧
    cycle quiet 0x8F0E (withRegs [(0xF, 0x7F)]) (fun t => t.reg 0xF) = some 0 := by decide

/-- T-ALU-15. -/
theorem test_rnd : cycle quiet 0xC00F State.reset (fun t => t.reg 0) = some 0x0B := by decide

/-! ### Index and memory -/

/-- T-MEM-1. -/
theorem test_ldI : cycle quiet 0xA123 State.reset State.i = some 0x123 := by decide

/-- T-MEM-2. -/
theorem test_addI : cycle quiet 0xF01E (startAt 0x200 0xFFE [(0, 1)]) (fun t => (t.i, t.reg 0xF)) = some (0xFFF, 0) ∧
    cycle quiet 0xF01E (startAt 0x200 0xFFF [(0, 1)]) (fun t => (t.i, t.reg 0xF)) = some (0, 1) := by decide

/-- T-MEM-3. -/
theorem test_addI_vf : cycle quiet 0xFF1E (startAt 0x200 0x100 [(0xF, 0x20)]) (fun t => (t.i, t.reg 0xF)) =
    some (0x120, 0) := by decide

/-- T-MEM-4. -/
theorem test_ldF : cycle quiet 0xF029 (withRegs [(0, 0x0A)]) State.i = some 0x032 ∧
    cycle quiet 0xF029 (withRegs [(0, 0xFF)]) State.i = some 0x4FB := by decide

/-- T-MEM-6. -/
theorem test_ldB : cycle quiet 0xF033 (startAt 0x200 0xFFD [(0, 123)])
    (fun t => (t.readByte 0xFFD, t.readByte 0xFFE, t.readByte 0xFFF)) = some (1, 2, 3) := by decide

/-- T-MEM-7. -/
theorem test_ldB_top : cycle quiet 0xF033 (startAt 0x200 0xFFE [(0, 123)]) (fun t => (t.fault, t.readByte 0xFFE)) =
    some (some ⟨.addressOutOfRange, 0x200, some 0xF033, some 0x1000⟩, 0) := by decide

/-- T-MEM-9. -/
theorem test_ldMemVx : cycle quiet 0xF255 (startAt 0x200 0xFFD [(0, 1), (1, 2), (2, 3)])
    (fun t => (t.readByte 0xFFD, t.readByte 0xFFE, t.readByte 0xFFF, t.i)) = some (1, 2, 3, 0xFFD) := by decide

/-- T-MEM-9. -/
theorem test_ldMemVx_top : cycle quiet 0xF355 (startAt 0x200 0xFFD [(0, 1)]) (fun t => (t.fault, t.readByte 0xFFD)) =
    some (some ⟨.addressOutOfRange, 0x200, some 0xF355, some 0x1000⟩, 0) := by decide

/-- T-MEM-10 (FONT). -/
theorem test_ldVxMem : cycle quiet 0xFF65 State.reset (fun t => t.v.toList) =
    some [0xF0, 0x90, 0x90, 0x90, 0xF0, 0x20, 0x60, 0x20, 0x20, 0x70, 0xF0, 0x10, 0xF0, 0x80, 0xF0, 0xF0] := by decide

/-! ### Display (bit c of a row is column c) -/

/-- S6. -/
theorem test_cls : cycle quiet 0x00E0 { withRegs [(0xF, 7)] with fb := Vector.replicate 32 5 }
    (fun t => (t.fb, cycleResult t, t.reg 0xF)) = some (Vector.replicate 32 0, ⟨true, false, none⟩, 7) := by decide

/-- T-DRW-4 (FONT). -/
theorem test_drw_wrap : cycle quiet 0xD015 (withRegs [(1, 30)])
    (fun t => (t.fb[30], t.fb[31], t.fb[0], t.fb[1], t.fb[2], t.fb[3], t.reg 0xF)) =
      some (0xF, 0x9, 0x9, 0x9, 0xF, 0, 0) := by decide

/-- T-DRW-3 (FONT). -/
theorem test_drw_vf : cycle quiet 0xDFF1 (withRegs [(0xF, 0x3C)]) (fun t => (t.fb[28], t.reg 0xF, cycleResult t)) =
    some (0xF000000000000000, 0, ⟨true, false, none⟩) := by decide

/-- T-DRW-5. -/
theorem test_drw_top : cycle quiet 0xD00F (startAt 0x200 0xFFF []) State.fault =
      some (some ⟨.addressOutOfRange, 0x200, some 0xD00F, some 0x1000⟩) ∧
    cycle quiet 0xD001 (startAt 0x200 0xFFF []) cycleResult = some ⟨true, false, none⟩ := by decide

/-! ### Keypad and timers -/

/-- T-KEY-1. -/
theorem test_skp : cycle (pressed [5]) 0xE09E (withRegs [(0, 5)]) State.pc = some 0x204 ∧
    cycle quiet 0xE09E (withRegs [(0, 5)]) State.pc = some 0x202 := by decide

/-- T-KEY-3. -/
theorem test_skp_index : cycle quiet 0xE09E (withRegs [(0, 0x10)]) State.fault =
    some (some ⟨.keyIndexOutOfRange, 0x200, some 0xE09E, some 0x10⟩) := by decide

/-- T-KEY-2. -/
theorem test_sknp : cycle (pressed [5]) 0xE0A1 (withRegs [(0, 5)]) State.pc = some 0x202 ∧
    cycle quiet 0xE0A1 (withRegs [(0, 5)]) State.pc = some 0x204 := by decide

/-- S7, cycle 1. -/
theorem test_ldVxK : cycle quiet 0xF30A State.reset (fun t => (t.await, t.pc)) = some (.awaitingKey 3, 0x202) := by decide

/-- T-KEY-4, cycle 2, and T-TMR-5. -/
theorem test_await : bareCycle (pressed [3, 9]) { State.reset with pc := 0x202, await := .awaitingKey 2 }
      (fun t => (t.reg 2, t.await, t.pc)) = some (3, .running, 0x202) ∧
    bareCycle ticked { State.reset with dt := 5, await := .awaitingKey 2 } (fun t => (t.dt, t.tickPending, t.await)) =
      some (5, true, .awaitingKey 2) := by decide

/-- T-TMR-2. -/
theorem test_ldVxDt : cycle ticked 0xF007 { State.reset with dt := 7 } (fun t => (t.reg 0, t.dt)) = some (7, 6) := by
  decide

/-- T-TMR-1. -/
theorem test_ldDtVx : cycle ticked 0xF015 (withRegs [(0, 7)]) State.dt = some 6 := by decide

/-- T-TMR-3. -/
theorem test_ldStVx : cycle ticked 0xF018 (withRegs [(0, 1)]) (fun t => (t.st, cycleResult t)) =
      some (0, ⟨false, false, none⟩) ∧
    cycle ticked 0xF018 (withRegs [(0, 2)]) (fun t => (t.st, cycleResult t)) = some (1, ⟨false, true, none⟩) := by decide

/-! ### Faults and halt -/

/-- T-FLT-1. -/
theorem test_decodeFailure : cycle ticked 0x0000 { State.reset with dt := 3 }
    (fun t => (t.fault, t.dt, t.tickPending, cycleResult t)) =
      some (some ⟨.decodeFailure, 0x200, some 0x0000, none⟩, 3, true, ⟨false, false, some .decodeFailure⟩) := by decide

/-- T-FLOW-18. -/
theorem test_fetch_top : bareCycle quiet (startAt 0xFFF 0 []) State.fault =
    some (some ⟨.addressOutOfRange, 0xFFF, none, some 0x1000⟩) := by decide

/-! ### Witnesses: for every statement with hypotheses, a concrete state and operands that meet them, at the bounds of
its clauses -/

/-- Running at this pc, with these registers and I. -/
abbrev runningAt (pc : Addr) : State := startAt pc 0 []

theorem witness_EncodeOfDecode : decode 0x2300#16 = .ok (.call 0x300) := by decide

theorem witness_DecodeFailuresOfSubvariantFamilies :
    (0x5FFF#16 : Opcode).toNat / 4096 = 5 ∧ (0x5010#16 : Opcode).toNat / 4096 = 5 ∧
    (0x9FF1#16 : Opcode).toNat / 4096 = 9 ∧ (0x9010#16 : Opcode).toNat / 4096 = 9 ∧
    (0x8FFF#16 : Opcode).toNat / 4096 = 8 ∧ (0x800E#16 : Opcode).toNat / 4096 = 8 ∧
    (0xE0FF#16 : Opcode).toNat / 4096 = 0xE ∧ (0xE09E#16 : Opcode).toNat / 4096 = 0xE ∧
    (0xFFFF#16 : Opcode).toNat / 4096 = 0xF ∧ (0xF007#16 : Opcode).toNat / 4096 = 0xF := by decide

theorem witness_DecodeFailureSpace : (0x0FFF#16 : Opcode).toNat < 4096 ∧ (0x00EE#16 : Opcode).toNat < 4096 := by decide

theorem witness_DecodeFollowsOpcodeMap :
    decode 0x8AB6#16 = .ok (.shr 0xA 0xB) ∧ matchesRow 0x8AB6#16 (.shr 0 0) = true := by decide

theorem witness_StepRunsDecodedInstruction :
    let s := (runningAt 0xFFE).withFetchWord 16 0x1FFE
    s.fault = none ∧ s.await = .running ∧ s.pc.toNat + 1 ≤ 0xFFF ∧
      decode (s.readByte s.pc.toNat ++ s.readByte (s.pc.toNat + 1)) = .ok (.jp 0xFFE) := by decide

theorem witness_CycleBeginsBySampling : (State.reset.present ticked).inputs = ticked :: [] := rfl

theorem witness_TimersCountDownOncePerTick :
    let s := ((withRegs [(0, 9)]).withFetchWord 16 0xF015).present ticked
    s.fault = none ∧ s.await = .running ∧ s.pc.toNat + 1 ≤ 0xFFF ∧
      decode (s.readByte s.pc.toNat ++ s.readByte (s.pc.toNat + 1)) = .ok (.ldDtVx 0) ∧
      ∃ t, exec (.ldDtVx 0) (beginCycle s) = .next t ∧ t.fault = none ∧ t.tickPending = true ∧ t.dt = 9 := by
  refine ⟨by decide, by decide, by decide, by decide, ⟨_, rfl, by decide, by decide, by decide⟩⟩

theorem witness_FetchAtTopFaults :
    (runningAt 0xFFF).fault = none ∧ (runningAt 0xFFF).await = .running ∧ (runningAt 0xFFF).pc = 0xFFF#12 := by decide

theorem witness_undecodedWord :
    (runningAt 0xFFE).fault = none ∧ (runningAt 0xFFE).await = .running ∧ (runningAt 0xFFE).pc.toNat + 1 ≤ 0xFFF ∧
      decode ((runningAt 0xFFE).readByte 0xFFE ++ (runningAt 0xFFE).readByte 0xFFF)
        = .error (.decodeFailure 0x0000#16) := by decide

/-- The hypotheses of `UndecodedWordRaisesDecodeFailure`. -/
theorem witness_UndecodedWordRaisesDecodeFailure :
    let s := runningAt 0xFFE
    s.fault = none ∧ s.await = .running ∧ s.pc.toNat + 1 ≤ 0xFFF ∧
      ∀ i, decode (s.readByte s.pc.toNat ++ s.readByte (s.pc.toNat + 1)) ≠ .ok i := by
  refine ⟨by decide, by decide, by decide, fun i => ?_⟩
  show decode ((runningAt 0xFFE).readByte 0xFFE ++ (runningAt 0xFFE).readByte 0xFFF) ≠ .ok i
  rw [witness_undecodedWord.2.2.2]
  exact fun h => by cases h

/-- The hypotheses of `DecodeFailureIsPrecise`, with a tick latched that the fault must keep. -/
theorem witness_DecodeFailureIsPrecise :
    let s := { runningAt 0xFFE with tickPending := true, dt := 3 }
    s.fault = none ∧ s.await = .running ∧ s.pc.toNat + 1 ≤ 0xFFF ∧
      ∀ i, decode (s.readByte s.pc.toNat ++ s.readByte (s.pc.toNat + 1)) ≠ .ok i :=
  witness_UndecodedWordRaisesDecodeFailure

/-- A halted core. -/
def haltedState : State := { State.reset with fault := some ⟨.decodeFailure, 0x200, some 0x0000, none⟩ }

theorem witness_HaltedCycleChangesNothing :
    haltedState.fault = some ⟨.decodeFailure, 0x200, some 0x0000, none⟩ := rfl

theorem witness_HaltLastsUntilReset : haltedState.fault ≠ none := by decide

/-- A core that awaits a key for VF, with a tick latched. -/
def awaitingState : State := { State.reset with await := .awaitingKey 0xF, tickPending := true, dt := 1 }

theorem witness_AwaitedKeyIsWritten :
    let s := awaitingState.present (pressed [15])
    s.fault = none ∧ s.await = .awaitingKey 0xF ∧ (currentInput s).keys[15] = true ∧
      ∀ (j : Nat) (hj : j < 15), (currentInput s).keys[j] = false := by decide

theorem witness_AwaitWithoutKeyHoldsTimers :
    let s := awaitingState.present ticked
    s.fault = none ∧ s.await = .awaitingKey 0xF ∧ ∀ (k : Nat) (hk : k < 16), (currentInput s).keys[k] = false := by decide

/-- A canonical memory whose cell 0x300 is listed, and the core about to store to it. -/
def storingState : State :=
  { (startAt 0x200 0x300 [(0, 7)]) with mem := [(0x200, 0xF0), (0x201, 0x55), (0x300, 1)], tickPending := true }

theorem witness_StepKeepsInvariant : Inv storingState ∧ ∃ t, step storingState = .next t ∧ t.readByte 0x300 = 7 :=
  ⟨⟨by decide, fun r h => (by cases h), fun h => absurd rfl h⟩, _, rfl, by decide⟩

/-- The invariant's clauses for a halted core and for one that awaits a key are met as well. -/
theorem witness_invariant_clauses : Inv haltedState ∧ Inv awaitingState :=
  ⟨⟨by decide, fun r h => by cases h; exact ⟨⟨by decide, by decide, rfl⟩, rfl, rfl, rfl⟩, fun _ => rfl⟩,
   ⟨by decide, fun r h => (by cases h), fun _ => rfl⟩⟩

theorem witness_EqualReadsMakeEqualMemories :
    Memory.wf defaultFont [(0x000, 0x11), (0xFFF, 1)] = true ∧
      ∀ a, Memory.read defaultFont [(0x000, 0x11), (0xFFF, 1)] a = Memory.read defaultFont [(0x000, 0x11), (0xFFF, 1)] a :=
  ⟨by decide, fun _ => rfl⟩

/-- Each cause's condition in `FaultCausesOfInstructions` is met by some instruction, at its bound. -/
theorem witness_FaultCausesOfInstructions :
    FaultCondition (.call 0) { State.reset with sp := 16 } .stackOverflow none ∧
    FaultCondition .ret State.reset .stackUnderflow none ∧
    FaultCondition (.drw 0 0 2) (startAt 0x200 0xFFF []) .addressOutOfRange (some 0x1000) ∧
    FaultCondition (.ldB 0) (startAt 0x200 0xFFE []) .addressOutOfRange (some 0x1000) ∧
    FaultCondition (.ldMemVx 3) (startAt 0x200 0xFFD []) .addressOutOfRange (some 0x1000) ∧
    FaultCondition (.ldVxMem 3) (startAt 0x200 0xFFD []) .addressOutOfRange (some 0x1000) ∧
    FaultCondition (.jpV0 0xF01) (withRegs [(0, 0xFF)]) .pcOutOfRange (some 0x1000) ∧
    FaultCondition (.skp 0) (withRegs [(0, 16)]) .keyIndexOutOfRange (some 16) :=
  ⟨⟨⟨_, rfl⟩, rfl, rfl⟩, ⟨rfl, rfl, rfl⟩, ⟨.inl ⟨_, _, _, rfl, by decide, by decide⟩, rfl⟩,
    ⟨.inr (.inl ⟨_, rfl, by decide⟩), rfl⟩, ⟨.inr (.inr (.inl ⟨_, rfl, by decide⟩)), rfl⟩,
    ⟨.inr (.inr (.inr ⟨_, rfl, by decide⟩)), rfl⟩, .inl ⟨_, rfl, by decide, by decide⟩, ⟨_, .inl rfl, by decide, by decide⟩⟩

/-- PcOutOfRange by the successor: R225's cases 0x1000 at 0xFFE, and a taken skip at 0xFFC and 0xFFE. -/
theorem witness_FaultCausesOfInstructions_successor :
    FaultCondition (.ldI 0) (runningAt 0xFFE) .pcOutOfRange (some 0x1000) ∧
    FaultCondition (.seImm 0 0) (runningAt 0xFFC) .pcOutOfRange (some 0x1000) ∧
    FaultCondition (.seImm 0 0) (runningAt 0xFFE) .pcOutOfRange (some 0x1002) :=
  ⟨.inr ⟨nofun, nofun, nofun, by decide, by decide⟩, .inr ⟨nofun, nofun, nofun, by decide, by decide⟩,
    .inr ⟨nofun, nofun, nofun, by decide, by decide⟩⟩

/-- The hypotheses of `NoSuccessorAboveTop`, for LD I, nnn and for a taken skip, and that of its last clause. -/
theorem witness_NoSuccessorAboveTop :
    ((runningAt 0xFFE).fault = none ∧ (runningAt 0xFFE).pc.toNat + 2 > 0xFFF) ∧
    (Instr.ldI 0x123 ≠ .ret ∧ (∀ nnn, Instr.ldI 0x123 ≠ .jp nnn) ∧ ∀ nnn, Instr.ldI 0x123 ≠ .jpV0 nnn) ∧
    (Instr.seImm 0 0 ≠ .ret ∧ (∀ nnn, Instr.seImm 0 0 ≠ .jp nnn) ∧ ∀ nnn, Instr.seImm 0 0 ≠ .jpV0 nnn) ∧
    skipTaken (.ldI 0x123) (runningAt 0xFFE) = false ∧ skipTaken (.seImm 0 0) (runningAt 0xFFE) = true ∧
    ∀ c info, FaultCondition (.ldI 0x123) (runningAt 0xFFE) c info → c = .pcOutOfRange := by
  refine ⟨by decide, ⟨nofun, nofun, nofun⟩, ⟨nofun, nofun, nofun⟩, rfl, rfl, fun c info h => ?_⟩
  cases c <;> simp_all [FaultCondition]

theorem witness_StoredCodeIsFetched :
    let s := startAt 0xFFC 0xFFE [(0, 0x12), (1, 0x34)]
    1 ≤ (1#4 : Reg).toNat ∧ s.i.toNat = s.pc.toNat + 2 ∧ s.i.toNat + (1#4 : Reg).toNat ≤ 0xFFF := by decide

theorem witness_SelfLoopStays : selfLoop ((runningAt 0xFFE).withFetchWord 16 0x1FFE) = true := by decide

theorem witness_LoadRomCopiesVerbatim :
    (List.replicate 3584 (0xAA#8 : Byte)).length ≤ 3584 ∧ (List.replicate 3585 (0xAA#8 : Byte)).length > 3584 := by
  simp only [List.length_replicate]; decide

theorem witness_JumpOffsetAddsV0 :
    ((withRegs [(0, 0xFF)]).reg 0).toNat + (0xF00#12 : Addr).toNat ≤ 0xFFF ∧
    ((withRegs [(0, 0xFF)]).reg 0).toNat + (0xF01#12 : Addr).toNat > 0xFFF := by decide

theorem witness_ReturnPopsTopEntry :
    0 < ({ State.reset with sp := 1 } : State).sp.val ∧ 0 < ({ State.reset with sp := 16 } : State).sp.val ∧
      State.reset.sp = 0 := by decide

theorem witness_CallPushesReturnAddress :
    (({ runningAt 0xFFD with sp := 15 } : State).sp.val < 16 ∧ (runningAt 0xFFD).pc.toNat + 2 ≤ 0xFFF) ∧
    ({ runningAt 0xFFE with sp := 16 } : State).sp = 16 ∧
    (({ runningAt 0xFFE with sp := 15 } : State).sp.val < 16 ∧ (runningAt 0xFFE).pc.toNat + 2 > 0xFFF) := by decide

theorem witness_ReturnUndoesCall :
    ({ runningAt 0xFFD with sp := 15 } : State).sp.val < 16 ∧ (runningAt 0xFFD).pc.toNat + 2 ≤ 0xFFF := by decide

/-- Taken and not taken, with a successor of 0xFFF and one above it: the clauses of `SkipsOnByte`. -/
theorem witness_SkipsOnByte :
    ((runningAt 0xFFB).pc.toNat + (if (runningAt 0xFFB).reg 0 = 0x00 then 4 else 2) ≤ 0xFFF) ∧
    ((runningAt 0xFFC).pc.toNat + (if (runningAt 0xFFC).reg 0 = 0x00 then 4 else 2) > 0xFFF) ∧
    ((runningAt 0xFFD).pc.toNat + (if (runningAt 0xFFD).reg 0 ≠ 0x00 then 4 else 2) ≤ 0xFFF) ∧
    ((runningAt 0xFFE).pc.toNat + (if (runningAt 0xFFE).reg 0 ≠ 0x00 then 4 else 2) > 0xFFF) := by decide

/-- The same for `SkipsOnRegister`. -/
theorem witness_SkipsOnRegister :
    ((runningAt 0xFFB).pc.toNat + (if (runningAt 0xFFB).reg 0 = (runningAt 0xFFB).reg 1 then 4 else 2) ≤ 0xFFF) ∧
    ((runningAt 0xFFC).pc.toNat + (if (runningAt 0xFFC).reg 0 = (runningAt 0xFFC).reg 1 then 4 else 2) > 0xFFF) ∧
    ((runningAt 0xFFD).pc.toNat + (if (runningAt 0xFFD).reg 0 ≠ (runningAt 0xFFD).reg 1 then 4 else 2) ≤ 0xFFF) ∧
    ((runningAt 0xFFE).pc.toNat + (if (runningAt 0xFFE).reg 0 ≠ (runningAt 0xFFE).reg 1 then 4 else 2) > 0xFFF) := by
  decide

/-- `pc + 2 = 0xFFF`: the one hypothesis of the statements named after it, at its bound. -/
theorem witness_ImmediateLoadAndAdd : (startAt 0xFFD 0 [(1, 0xFF)]).pc.toNat + 2 ≤ 0xFFF := by decide

theorem witness_RegisterMoveAndLogic : (startAt 0xFFD 0 [(1, 0x0C), (2, 0x0A)]).pc.toNat + 2 ≤ 0xFFF := by decide

/-- Both clauses: a destination that is not VF, and VF. -/
theorem witness_AddWritesCarry : (startAt 0xFFD 0 [(0xE, 0xFF), (1, 1)]).pc.toNat + 2 ≤ 0xFFF ∧ (0xE#4 : Reg) ≠ 0xF#4 := by
  decide

theorem witness_SubtractsWriteNoBorrow :
    (startAt 0xFFD 0 [(0xE, 0), (1, 1)]).pc.toNat + 2 ≤ 0xFFF ∧ (0xE#4 : Reg) ≠ 0xF#4 := by decide

theorem witness_ShiftsWriteBitShiftedOut :
    (startAt 0xFFD 0 [(0xE, 0x81)]).pc.toNat + 2 ≤ 0xFFF ∧ (0xE#4 : Reg) ≠ 0xF#4 ∧ (0xF#4 : Reg) = 0xF#4 := by decide

theorem witness_RandomByteIsMasked : (runningAt 0xFFD).pc.toNat + 2 ≤ 0xFFF := by decide

theorem witness_IndexLoads : (startAt 0xFFD 0 [(1, 0xFF)]).pc.toNat + 2 ≤ 0xFFF := by decide

theorem witness_IndexAddWritesCarry : (startAt 0xFFD 0xFFF [(0xF, 1)]).pc.toNat + 2 ≤ 0xFFF := by decide

theorem witness_BcdStoresThreeDigits :
    ((startAt 0xFFD 0xFFD []).pc.toNat + 2 ≤ 0xFFF ∧ (startAt 0xFFD 0xFFD []).i.toNat + 2 ≤ 0xFFF) ∧
      (startAt 0xFFF 0xFFE []).i.toNat + 2 > 0xFFF := by decide

theorem witness_RegisterDumpStoresInOrder :
    ((startAt 0xFFD 0xFFD []).pc.toNat + 2 ≤ 0xFFF ∧ (startAt 0xFFD 0xFFD []).i.toNat + (2#4 : Reg).toNat ≤ 0xFFF ∧
      (2#4 : Reg).toNat ≤ (2#4 : Reg).toNat) ∧
    (startAt 0xFFF 0xFFD []).i.toNat + (3#4 : Reg).toNat > 0xFFF := by decide

theorem witness_RegisterLoadReadsInOrder :
    ((startAt 0xFFD 0xFF0 []).pc.toNat + 2 ≤ 0xFFF ∧ (startAt 0xFFD 0xFF0 []).i.toNat + (0xF#4 : Reg).toNat ≤ 0xFFF) ∧
    (startAt 0xFFF 0xFF1 []).i.toNat + (0xF#4 : Reg).toNat > 0xFFF := by decide

theorem witness_ClearZeroesScreen : (runningAt 0xFFD).pc.toNat + 2 ≤ 0xFFF ∧ (runningAt 0xFFD).fault = none := by decide

theorem witness_DrawXorsSprite :
    ((startAt 0xFFD 0xFFF []).pc.toNat + 2 ≤ 0xFFF ∧
      ((1#4 : Nibble) = 0 ∨ (startAt 0xFFD 0xFFF []).i.toNat + (1#4 : Nibble).toNat - 1 ≤ 0xFFF)) ∧
    ((0#4 : Nibble) = 0 ∨ (startAt 0xFFD 0xFFF []).i.toNat + (0#4 : Nibble).toNat - 1 ≤ 0xFFF) ∧
    ((2#4 : Nibble) ≠ 0 ∧ (startAt 0xFFD 0xFFF []).i.toNat + (2#4 : Nibble).toNat - 1 > 0xFFF) := by decide

/-- A draw that turns cell (0, 0) off, and one that turns none off: the clauses on VF. -/
theorem witness_DrawXorsSprite_collision :
    (∃ t, exec (.drw 0 0 1) { State.reset with fb := State.reset.fb.set 0 1 } = .next t ∧
      pixel ({ State.reset with fb := State.reset.fb.set 0 1 } : State).fb 0 0 = true ∧ pixel t.fb 0 0 = false) ∧
    ∃ t, exec (.drw 0 0 0) State.reset = .next t ∧
      ¬ ∃ row col, pixel State.reset.fb row col = true ∧ pixel t.fb row col = false := by
  refine ⟨⟨_, rfl, by decide, by decide⟩, ⟨_, rfl, ?_⟩⟩
  rintro ⟨row, col, h, h'⟩
  exact absurd (h.symm.trans h') (by decide)

theorem witness_DrawOfNoRows : (startAt 0xFFD 0xFFF [(0xF, 7)]).pc.toNat + 2 ≤ 0xFFF := by decide

theorem witness_DrawTwiceRestores :
    ∃ t, exec (.drw 0 1 1) (startAt 0xFFB 0xFFF [(0, 60)]) = .next t ∧ t.fault = none ∧
      t.reg 0 = (startAt 0xFFB 0xFFF [(0, 60)]).reg 0 ∧ t.reg 1 = (startAt 0xFFB 0xFFF [(0, 60)]).reg 1 ∧
      t.pc.toNat + 2 ≤ 0xFFF :=
  ⟨_, rfl, by decide, by decide, by decide, by decide⟩

/-- Key 15, pressed and not, with a successor of 0xFFF and one above it; and the index 16. -/
theorem witness_SkipsOnKey :
    let s := fun (pc : Addr) => ({ startAt pc 0 [(0, 15)] with keypad := keysDown [15] } : State)
    ((s 0xFFB).reg 0).toNat < 16 ∧
    (s 0xFFB).pc.toNat + (if (s 0xFFB).keypad[15] = true then 4 else 2) ≤ 0xFFF ∧
    (s 0xFFC).pc.toNat + (if (s 0xFFC).keypad[15] = true then 4 else 2) > 0xFFF ∧
    (s 0xFFD).pc.toNat + (if (s 0xFFD).keypad[15] = false then 4 else 2) ≤ 0xFFF ∧
    (s 0xFFE).pc.toNat + (if (s 0xFFE).keypad[15] = false then 4 else 2) > 0xFFF ∧
    ((withRegs [(0, 16)]).reg 0).toNat > 15 := by decide

theorem witness_DelayTimerIsRead : (runningAt 0xFFD).pc.toNat + 2 ≤ 0xFFF ∧ (runningAt 0xFFD).fault = none := by decide

theorem witness_TimersAreSet : (runningAt 0xFFD).pc.toNat + 2 ≤ 0xFFF ∧ (runningAt 0xFFD).fault = none := by decide

theorem witness_AwaitKeyEntersWait : (runningAt 0xFFD).pc.toNat + 2 ≤ 0xFFF := by decide

end Sys2Proof.Tests
end

section
/-! The framebuffer read port (R32, R55): its index names one cell, row first. -/

namespace Sys2Proof.Machine

theorem fbPort_of_lt (s : State) {n : Nat} (h : n < 2048) :
    fbPort s n = flagByte (pixel s.fb ⟨n / 64, by omega⟩ ⟨n % 64, by omega⟩) :=
  dif_pos h

@[simp] theorem fbPort_cell (s : State) (row : Fin 32) (col : Fin 64) :
    fbPort s (row.val * 64 + col.val) = flagByte (pixel s.fb row col) := by
  have hrow : (row.val * 64 + col.val) / 64 = row.val := by omega
  have hcol : (row.val * 64 + col.val) % 64 = col.val := by omega
  rw [fbPort_of_lt s (by omega)]
  simp only [hrow, hcol]

/-- Settles O29: division by 64 gives back row and column of the port's index, and the port shows that cell's flag. -/
theorem framebufferPortShowsCells : Obligations.FramebufferPortShowsCells := by
  intro s row col
  rw [fbPort_cell, flagByte]

end Sys2Proof.Machine
end

section
/-! The decode failures of the families that a low nibble or a low byte subdivides (R88, R89, R90): what each family
refuses, then the same of `decode` on the words of that family. -/

namespace Sys2Proof

/-- A guarded row of the decoder does not refuse the words it matches; on the others the rest decides. -/
theorem ite_ok_eq_error_iff {c : Prop} [Decidable c] (i : Instr) (rest : Except DecodeError Instr) (e : DecodeError) :
    (if c then .ok i else rest) = .error e ↔ ¬ c ∧ rest = .error e := by
  split <;> simp [*]

theorem fieldN_eq_zero_iff (op : Opcode) : fieldN op = 0#4 ↔ op.toNat % 16 = 0 := by
  rw [← BitVec.toNat_inj, fieldN_toNat, BitVec.toNat_zero]

theorem fieldKK_eq_iff (op : Opcode) (kk : Byte) : fieldKK op = kk ↔ op.toNat % 256 = kk.toNat := by
  rw [← BitVec.toNat_inj, fieldKK_toNat]

theorem decodeFamily8_eq_error_iff (op : Opcode) : decodeFamily8 op = .error (.decodeFailure op) ↔
    op.toNat % 16 ∈ [0x8, 0x9, 0xA, 0xB, 0xC, 0xD, 0xF] := by
  have hlt : op.toNat % 16 < 16 := Nat.mod_lt _ (by decide)
  rw [decodeFamily8, fieldN_toNat]
  generalize op.toNat % 16 = n at hlt ⊢
  interval_cases n <;> simp

theorem decodeFamilyE_eq_error_iff (op : Opcode) : decodeFamilyE op = .error (.decodeFailure op) ↔
    op.toNat % 256 ∉ [0x9E, 0xA1] := by
  simp [decodeFamilyE, ite_ok_eq_error_iff, fieldKK_eq_iff]

theorem decodeFamilyF_eq_error_iff (op : Opcode) : decodeFamilyF op = .error (.decodeFailure op) ↔
    op.toNat % 256 ∉ [0x07, 0x0A, 0x15, 0x18, 0x1E, 0x29, 0x33, 0x55, 0x65] := by
  simp [decodeFamilyF, ite_ok_eq_error_iff, fieldKK_eq_iff]

section
variable {op : Opcode}

theorem decode_of_family8 (h : op.toNat / 4096 = 0x8) : decode op = decodeFamily8 op := by
  simp only [decode, fieldH_toNat, h]

theorem decode_of_familyE (h : op.toNat / 4096 = 0xE) : decode op = decodeFamilyE op := by
  simp only [decode, fieldH_toNat, h]

theorem decode_of_familyF (h : op.toNat / 4096 = 0xF) : decode op = decodeFamilyF op := by
  simp only [decode, fieldH_toNat, h]

/-- Families 5 and 9 have one row each, guarded by a low nibble of 0 (R88). -/
theorem decode_eq_error_iff_of_family59 (h : op.toNat / 4096 = 5 ∨ op.toNat / 4096 = 9) :
    decode op = .error (.decodeFailure op) ↔ op.toNat % 16 ≠ 0 := by
  obtain h | h := h <;> simp [decode, fieldH_toNat, h, fieldN_eq_zero_iff]

end

/-- Settles O3: on each family the word decodes as that family's decoder does, which refuses exactly the words that
match none of its rows. -/
theorem decodeFailuresOfSubvariantFamilies : Obligations.DecodeFailuresOfSubvariantFamilies := by
  intro op
  refine ⟨decode_eq_error_iff_of_family59, fun h => ?_, fun h => ?_, fun h => ?_⟩
  · rw [decode_of_family8 h]; exact decodeFamily8_eq_error_iff op
  · rw [decode_of_familyE h]; exact decodeFamilyE_eq_error_iff op
  · rw [decode_of_familyF h]; exact decodeFamilyF_eq_error_iff op

end Sys2Proof
end

section
/-! The jump to an absolute address (R120): its word, and its one effect. -/

namespace Sys2Proof.Machine

/-- Setting the pc changes nothing but the pc. -/
theorem withPc_frame (s : State) (a : Addr) : Frame [] [.pc] s (s.withPc a) := by
  refine ⟨fun r _ => withPc_reg s a r, fun p hp => ?_⟩
  cases p with
  | pc => exact absurd List.mem_cons_self hp
  | _ => simp [Unchanged]

theorem decode_wordA_jp (nnn : Addr) : decode (wordA 0x1#4 nnn) = .ok (.jp nnn) := by
  simp [decode]

/-- A 12-bit target is always within reach of `SetPC`, so the jump cannot fault. -/
theorem exec_jp (nnn : Addr) (s : State) : exec (.jp nnn) s = .next (s.withPc nnn) :=
  calc exec (.jp nnn) s
    _ = complete (.jp nnn) s (setPc nnn.toNat s) := rfl
    _ = .next (s.withPc nnn) := by rw [setPc_addr, complete_ok]

/-- Settles O30: the jump's rule ends in the state with the pc set to its target. -/
theorem jumpGoesToTarget : Obligations.JumpGoesToTarget := by
  intro nnn s
  exact ⟨decode_wordA_jp nnn, s.withPc nnn, exec_jp nnn s, withPc_pc s nnn, withPc_frame s nnn⟩

end Sys2Proof.Machine
end

section
/-! The instructions that write one register and no flag (R140 to R145): their words, and the one way they all end. -/

namespace Sys2Proof.Machine

/-! ### Their words -/

theorem decode_wordXK_ldImm (x : Reg) (kk : Byte) : decode (wordXK 0x6#4 x kk) = .ok (.ldImm x kk) := by
  simp [decode]

theorem decode_wordXK_addImm (x : Reg) (kk : Byte) : decode (wordXK 0x7#4 x kk) = .ok (.addImm x kk) := by
  simp [decode]

/-- A built word of family 8 is decoded by its low nibble (R89). -/
theorem decode_wordXYN_family8 (x y : Reg) (n : Nibble) :
    decode (wordXYN 0x8#4 x y n) = decodeFamily8 (wordXYN 0x8#4 x y n) := by
  simp [decode]

theorem decode_wordXYN_ldReg (x y : Reg) : decode (wordXYN 0x8#4 x y 0x0#4) = .ok (.ldReg x y) := by
  simp [decode_wordXYN_family8, decodeFamily8]

theorem decode_wordXYN_orReg (x y : Reg) : decode (wordXYN 0x8#4 x y 0x1#4) = .ok (.orReg x y) := by
  simp [decode_wordXYN_family8, decodeFamily8]

theorem decode_wordXYN_andReg (x y : Reg) : decode (wordXYN 0x8#4 x y 0x2#4) = .ok (.andReg x y) := by
  simp [decode_wordXYN_family8, decodeFamily8]

theorem decode_wordXYN_xorReg (x y : Reg) : decode (wordXYN 0x8#4 x y 0x3#4) = .ok (.xorReg x y) := by
  simp [decode_wordXYN_family8, decodeFamily8]

/-! ### One register written, then the next instruction -/

/-- Writing a register changes nothing but that register. -/
theorem setReg_frame (s : State) (x : Reg) (b : Byte) : Frame [x] [] s (s.setReg x b) := by
  refine ⟨fun r hr => setReg_reg_other s x r b (List.ne_of_not_mem_cons hr), fun p _ => ?_⟩
  cases p <;> simp [Unchanged]

/-- A rule that writes one register and ends with `SetPC(pc_seq)`, where the successor exists: the register holds the
value, the pc is advanced, and nothing else differs. So VF keeps its value unless it is the register written. -/
theorem complete_setReg_pcSeq (i : Instr) {s : State} (x : Reg) (b : Byte) (hpc : s.pc.toNat + 2 ≤ 0xFFF) :
    ∃ t, complete i s (setPc s.pcSeq (s.setReg x b)) = .next t ∧ t.reg x = b ∧ t.pc.toNat = s.pc.toNat + 2 ∧
      Frame [x] [.pc] s t := by
  refine ⟨_, complete_setPc_of_le i s _ _ hpc, ?_, ?_, ?_⟩
  · rw [withPc_reg, setReg_reg_same]
  · exact ofNat12_toNat s.pcSeq hpc
  · exact (setReg_frame s x b).trans (withPc_frame _ _)

/-- Settles O37: both rules write Vx alone and go on; the byte `ADD` writes is the exact sum mod 256. -/
theorem immediateLoadAndAdd : Obligations.ImmediateLoadAndAdd := by
  intro x kk s hpc
  refine ⟨decode_wordXK_ldImm x kk, decode_wordXK_addImm x kk, ?load, ?add⟩
  case load => exact complete_setReg_pcSeq (.ldImm x kk) x kk hpc
  case add =>
    obtain ⟨t, hexec, hreg, hrest⟩ :=
      complete_setReg_pcSeq (.addImm x kk) x (BitVec.ofNat 8 ((s.reg x).toNat + kk.toNat)) hpc
    exact ⟨t, hexec, by rw [hreg, BitVec.toNat_ofNat], hrest⟩

/-- Settles O38: all four rules write Vx alone and go on; the byte each logic rule writes has the bits it names. -/
theorem registerMoveAndLogic : Obligations.RegisterMoveAndLogic := by
  intro x y s hpc
  refine ⟨decode_wordXYN_ldReg x y, decode_wordXYN_orReg x y, decode_wordXYN_andReg x y, decode_wordXYN_xorReg x y,
    ?move, ?or, ?and, ?xor⟩
  case move => exact complete_setReg_pcSeq (.ldReg x y) x (s.reg y) hpc
  case or =>
    obtain ⟨t, hexec, hreg, hrest⟩ := complete_setReg_pcSeq (.orReg x y) x (s.reg x ||| s.reg y) hpc
    exact ⟨t, hexec, fun b => by rw [hreg, BitVec.getLsbD_or], hrest⟩
  case and =>
    obtain ⟨t, hexec, hreg, hrest⟩ := complete_setReg_pcSeq (.andReg x y) x (s.reg x &&& s.reg y) hpc
    exact ⟨t, hexec, fun b => by rw [hreg, BitVec.getLsbD_and], hrest⟩
  case xor =>
    obtain ⟨t, hexec, hreg, hrest⟩ := complete_setReg_pcSeq (.xorReg x y) x (s.reg x ^^^ s.reg y) hpc
    exact ⟨t, hexec, fun b => by rw [hreg, BitVec.getLsbD_xor], hrest⟩

end Sys2Proof.Machine
end

section
/-! The loads of the index register (R170, R173): their words, the glyph address that fits `I` unreduced, and the one
way both rules end. -/

namespace Sys2Proof.Machine

theorem decode_wordA_ldI (nnn : Addr) : decode (wordA 0xA#4 nnn) = .ok (.ldI nnn) := by
  simp [decode]

theorem decode_wordXK_ldF (x : Reg) : decode (wordXK 0xF#4 x 0x29#8) = .ok (.ldF x) := by
  simp [decode, decodeFamilyF]

/-- Five times a byte is at most 1275, so the glyph address is the exact product (R173). -/
theorem glyphAddr_toNat (s : State) (x : Reg) : (glyphAddr s x).toNat = (s.reg x).toNat * 5 := by
  have hbyte := (s.reg x).isLt
  exact ofNat12_toNat _ (by omega)

/-- Setting the index register changes nothing but the index register. -/
theorem setI_frame (s : State) (a : Addr) : Frame [] [.index] s (s.setI a) := by
  refine ⟨fun r _ => setI_reg s a r, fun p hp => ?_⟩
  cases p with
  | index => exact absurd List.mem_cons_self hp
  | _ => simp [Unchanged]

/-- A rule that sets the index register and ends with `SetPC(pc_seq)`, where the successor exists: `I` holds the
address, the pc is advanced, and nothing else differs. -/
theorem complete_setI_pcSeq (i : Instr) {s : State} (a : Addr) (hpc : s.pc.toNat + 2 ≤ 0xFFF) :
    ∃ t, complete i s (setPc s.pcSeq (s.setI a)) = .next t ∧ t.i = a ∧ t.pc.toNat = s.pc.toNat + 2 ∧
      Frame [] [.pc, .index] s t := by
  refine ⟨_, complete_setPc_of_le i s _ _ hpc, ?_, ?_, ?_⟩
  · rw [withPc_i, setI_i]
  · exact ofNat12_toNat s.pcSeq hpc
  · exact ((setI_frame s a).trans (withPc_frame _ _)).mono (fun _ hr => hr) (by simp)

/-- Settles O43: both rules set `I` alone and go on; the address `LD F` sets is five times the whole of Vx. -/
theorem indexLoads : Obligations.IndexLoads := by
  intro nnn x s hpc
  refine ⟨decode_wordA_ldI nnn, decode_wordXK_ldF x, ?address, ?glyph⟩
  case address => exact complete_setI_pcSeq (.ldI nnn) nnn hpc
  case glyph =>
    obtain ⟨t, hexec, hi, hrest⟩ := complete_setI_pcSeq (.ldF x) (glyphAddr s x) hpc
    exact ⟨t, hexec, by rw [hi, glyphAddr_toNat], hrest⟩

end Sys2Proof.Machine
end

section
/-! The display rules that read no sprite row (R190, R195): the clear, the draw of no rows, and the one way both end. -/

namespace Sys2Proof.Machine

/-! ### Drawing's two writes, and the end of a drawing rule -/

/-- Replacing the framebuffer changes nothing but the screen. -/
theorem setFb_frame (s : State) (f : Framebuffer) : Frame [] [.screen] s (s.setFb f) := by
  refine ⟨fun r _ => setFb_reg s f r, fun p hp => ?_⟩
  cases p with
  | screen => exact absurd List.mem_cons_self hp
  | _ => simp [Unchanged]

/-- Setting DIRTY changes nothing but DIRTY. -/
theorem markDirty_frame (s : State) : Frame [] [.dirty] s s.markDirty := by
  refine ⟨fun r _ => markDirty_reg s r, fun p hp => ?_⟩
  cases p with
  | dirty => exact absurd List.mem_cons_self hp
  | _ => simp [Unchanged]

/-- A rule that has made the state `u`, sets DIRTY and ends with `SetPC(pc_seq)`, where the successor exists: DIRTY is
set, the pc is advanced, and nothing else differs from `u`. -/
theorem complete_markDirty_pcSeq (i : Instr) {s : State} (u : State) (hpc : s.pc.toNat + 2 ≤ 0xFFF) :
    ∃ t, complete i s (setPc s.pcSeq u.markDirty) = .next t ∧ t.dirty = true ∧ t.pc.toNat = s.pc.toNat + 2 ∧
      Frame [] [.dirty, .pc] u t := by
  refine ⟨_, complete_setPc_of_le i s _ _ hpc, ?_, ?_, ?_⟩
  · rw [withPc_dirty, markDirty_dirty]
  · exact ofNat12_toNat s.pcSeq hpc
  · exact (markDirty_frame u).trans (withPc_frame _ _)

/-! ### DRW of no rows -/

theorem drawRows_zero (s : State) (cx cy : Nat) (c : Canvas) : drawRows s cx cy 0 c = c := rfl

theorem setFb_fb_self (s : State) : s.setFb s.fb = s := rfl

/-- With no rows the range check passes for any I, and the loop leaves the screen and no collision. -/
theorem exec_drw_zero (x y : Reg) (s : State) :
    exec (.drw x y 0) s = complete (.drw x y 0) s (setPc s.pcSeq (s.setReg 0xF#4 0).markDirty) :=
  have hrows : (0 : Nibble).toNat = 0 := rfl
  have hflag : s.setVf (flagByte false) = s.setReg 0xF#4 0 := rfl
  calc exec (.drw x y 0) s
    _ = execDrw x y 0 s := rfl
    _ = complete (.drw x y 0) s (rangeCheck s.i.toNat 0 (setPc s.pcSeq (s.setReg 0xF#4 0).markDirty)) := by
      simp only [execDrw, hrows, drawRows_zero, setFb_fb_self, hflag]
    _ = complete (.drw x y 0) s (setPc s.pcSeq (s.setReg 0xF#4 0).markDirty) := by
      rw [rangeCheck_of_fits _ _ _ (.inl rfl)]

/-- Settles O50: the rule clears VF, sets DIRTY and goes on, with no check that `I` could fail. -/
theorem drawOfNoRows : Obligations.DrawOfNoRows := by
  intro x y s hpc
  obtain ⟨t, hexec, hdirty, htpc, hframe⟩ := complete_markDirty_pcSeq (.drw x y 0) (s.setReg 0xF#4 0) hpc
  refine ⟨t, (exec_drw_zero x y s).trans hexec, ?_, hdirty, htpc, ?_⟩
  · rw [hframe.1 _ List.not_mem_nil, setReg_reg_same]
  · exact ((setReg_frame s 0xF#4 0).trans hframe).mono (fun _ hr => hr) (by simp)

/-! ### CLS -/

theorem decode_cls : decode 0x00E0#16 = .ok .cls := by decide

theorem exec_cls (s : State) : exec .cls s = complete .cls s (setPc s.pcSeq (s.setFb clearScreen).markDirty) := rfl

/-- Without a fault the cycle reports DIRTY, which step 4 does not write (R54, R107). -/
theorem cycleResult_endCycle_vramDirty {t : State} (hf : t.fault = none) :
    (cycleResult (endCycle t)).vramDirty = t.dirty := by
  have hframe := timerStep_frame t
  have hfault : (timerStep t).fault = t.fault := hframe.2 .fault (by decide)
  have hdirty : (timerStep t).dirty = t.dirty := hframe.2 .dirty (by decide)
  rw [endCycle_of_no_fault t hf, cycleResult, hfault, hf, hdirty]

/-- Settles O48: the rule replaces the screen by the clear one, sets DIRTY and goes on, whatever the screen was. -/
theorem clearZeroesScreen : Obligations.ClearZeroesScreen := by
  intro s hpc
  obtain ⟨t, hexec, hdirty, htpc, hframe⟩ := complete_markDirty_pcSeq .cls (s.setFb clearScreen) hpc
  have hscreen := hframe.2 .screen (by decide)
  have hfault : t.fault = s.fault := hframe.2 .fault (by decide)
  refine ⟨decode_cls, t, (exec_cls s).trans hexec, fun row col => ?_, hdirty, htpc, ?_, fun hf => ?_⟩
  · rw [hscreen row col, setFb_fb, pixel_clearScreen]
  · exact ((setFb_frame s clearScreen).trans hframe).mono (fun _ hr => hr) (by simp)
  · rw [cycleResult_endCycle_vramDirty (hfault.trans hf), hdirty]

end Sys2Proof.Machine
end

section
/-! The timer transfers (R202, R204, R205): their words, the one way their rules end, and what step 4 of the same cycle
leaves and counts down (R107). -/

namespace Sys2Proof.Machine

/-! ### Their words -/

/-- A built word of family F is decoded by its low byte (R90). -/
theorem decode_wordXK_familyF (x : Reg) (kk : Byte) :
    decode (wordXK 0xF#4 x kk) = decodeFamilyF (wordXK 0xF#4 x kk) := by
  simp [decode]

theorem decode_wordXK_ldVxDt (x : Reg) : decode (wordXK 0xF#4 x 0x07#8) = .ok (.ldVxDt x) := by
  simp [decode_wordXK_familyF, decodeFamilyF]

theorem decode_wordXK_ldDtVx (x : Reg) : decode (wordXK 0xF#4 x 0x15#8) = .ok (.ldDtVx x) := by
  simp [decode_wordXK_familyF, decodeFamilyF]

theorem decode_wordXK_ldStVx (x : Reg) : decode (wordXK 0xF#4 x 0x18#8) = .ok (.ldStVx x) := by
  simp [decode_wordXK_familyF, decodeFamilyF]

/-! ### Setting a timer, then the next instruction -/

/-- Setting the delay timer changes nothing but the delay timer. -/
theorem setDt_frame (s : State) (b : Byte) : Frame [] [.delay] s (s.setDt b) := by
  refine ⟨fun r _ => setDt_reg s b r, fun p hp => ?_⟩
  cases p with
  | delay => exact absurd List.mem_cons_self hp
  | _ => simp [Unchanged]

/-- Setting the sound timer changes nothing but the sound timer. -/
theorem setSt_frame (s : State) (b : Byte) : Frame [] [.sound] s (s.setSt b) := by
  refine ⟨fun r _ => setSt_reg s b r, fun p hp => ?_⟩
  cases p with
  | sound => exact absurd List.mem_cons_self hp
  | _ => simp [Unchanged]

/-- A rule that has made the state `u` and ends with `SetPC(pc_seq)`, where the successor exists: the pc is advanced,
and nothing else differs from `u`. -/
theorem complete_pcSeq (i : Instr) {s : State} (u : State) (hpc : s.pc.toNat + 2 ≤ 0xFFF) :
    ∃ t, complete i s (setPc s.pcSeq u) = .next t ∧ t.pc.toNat = s.pc.toNat + 2 ∧ Frame [] [.pc] u t :=
  ⟨_, complete_setPc_of_le i s u _ hpc, ofNat12_toNat s.pcSeq hpc, withPc_frame u _⟩

/-! ### Step 4 after an instruction -/

/-- The rest of the cycle writes no general register, with or without a fault. -/
theorem endCycle_reg (t : State) (r : Reg) : (endCycle t).reg r = t.reg r := by
  by_cases hf : t.fault = none
  · rw [endCycle_of_no_fault t hf]
    exact (timerStep_frame t).1 r List.not_mem_nil
  · rw [endCycle_of_fault t hf]

section
variable {t : State} (hf : t.fault = none)
include hf

theorem endCycle_dt : (endCycle t).dt.toNat = t.dt.toNat - if t.tickPending then 1 else 0 := by
  rw [endCycle_of_no_fault t hf, timerStep_dt]

theorem endCycle_st : (endCycle t).st.toNat = t.st.toNat - if t.tickPending then 1 else 0 := by
  rw [endCycle_of_no_fault t hf, timerStep_st]

/-- Without a fault the cycle beeps while the sound timer, after step 4, is not 0 (R54, R108). -/
theorem cycleResult_endCycle_shouldBeep :
    (cycleResult (endCycle t)).shouldBeep = decide ((endCycle t).st.toNat > 0) := by
  have hfault : (timerStep t).fault = t.fault := (timerStep_frame t).2 .fault (by decide)
  rw [endCycle_of_no_fault t hf, cycleResult, hfault, hf]

end

/-- Settles O54: each rule sets its timer alone and goes on, so step 4 of the same cycle finds the value just written
and the latch as it was. -/
theorem timersAreSet : Obligations.TimersAreSet := by
  intro x s hpc
  refine ⟨decode_wordXK_ldDtVx x, decode_wordXK_ldStVx x, ?delay, ?sound⟩
  case delay =>
    obtain ⟨t, hexec, htpc, hadvance⟩ := complete_pcSeq (.ldDtVx x) (s.setDt (s.reg x)) hpc
    have hdt : t.dt = s.reg x := hadvance.2 .delay (by decide)
    have hframe : Frame [] [.pc, .delay] s t :=
      ((setDt_frame s (s.reg x)).trans hadvance).mono (fun _ hr => hr) (by simp)
    have hfault : t.fault = s.fault := hframe.2 .fault (by decide)
    have htick : t.tickPending = s.tickPending := hframe.2 .tick (by decide)
    refine ⟨t, hexec, hdt, htpc, hframe, fun hf => ?_⟩
    rw [endCycle_dt (hfault.trans hf), hdt, htick]
  case sound =>
    obtain ⟨t, hexec, htpc, hadvance⟩ := complete_pcSeq (.ldStVx x) (s.setSt (s.reg x)) hpc
    have hst : t.st = s.reg x := hadvance.2 .sound (by decide)
    have hframe : Frame [] [.pc, .sound] s t :=
      ((setSt_frame s (s.reg x)).trans hadvance).mono (fun _ hr => hr) (by simp)
    have hfault : t.fault = s.fault := hframe.2 .fault (by decide)
    have htick : t.tickPending = s.tickPending := hframe.2 .tick (by decide)
    refine ⟨t, hexec, hst, htpc, hframe, fun hf => ⟨?_, cycleResult_endCycle_shouldBeep (hfault.trans hf)⟩⟩
    rw [endCycle_st (hfault.trans hf), hst, htick]

/-- Settles O53: the rule copies DT to Vx before step 4 counts it down, and step 4 leaves the register. -/
theorem delayTimerIsRead : Obligations.DelayTimerIsRead := by
  intro x s hpc
  obtain ⟨t, hexec, hreg, htpc, hframe⟩ := complete_setReg_pcSeq (.ldVxDt x) x s.dt hpc
  exact ⟨decode_wordXK_ldVxDt x, t, hexec, hreg, htpc, hframe, fun _ => by rw [endCycle_reg, hreg]⟩

end Sys2Proof.Machine
end

section
/-! The cycle of a running core whose word matches no row of the opcode map (R105, R221). -/

namespace Sys2Proof.Machine

/-- Step 1 writes neither the pc nor the memory, so step 3 fetches the word that stood there before the cycle. -/
theorem fetchWord_beginCycle (s : State) : fetchWord (beginCycle s) = fetchWord s := rfl

/-- A running core whose word decodes to nothing takes the fault in the state after step 1, and runs neither an
instruction nor step 4. -/
theorem step_of_undecoded {s : State} {e : DecodeError} (hf : s.fault = none) (ha : s.await = .running)
    (hpc : s.pc.toNat + 1 ≤ 0xFFF) (hd : decode (fetchWord s) = .error e) :
    step s = .next (takeFault raiseDecodeFailure (some (fetchWord s)) (beginCycle s)) := by
  have hfetch : fetchInstr (beginCycle s) = .error (raiseDecodeFailure, some (fetchWord s)) :=
    fetchInstr_of_error (beginCycle s) e hpc (by rwa [fetchWord_beginCycle])
  rw [step_of_running hf ha, hfetch]

/-- Settles O11: the decoder answers an instruction or an error; the first is excluded, and on the second the cycle
ends in the fault `DecodeFailure`. -/
theorem undecodedWordRaisesDecodeFailure : Obligations.UndecodedWordRaisesDecodeFailure := by
  intro s hf ha hpc hnone
  cases hd : decode (fetchWord s) with
  | ok i => exact absurd hd (hnone i)
  | error e => exact ⟨_, _, step_of_undecoded hf ha hpc hd, takeFault_fault _ _ _, rfl⟩

end Sys2Proof.Machine
end

section
/-! Decoding and encoding undo each other (R83, R85, R98): first the word of every instruction decoded, then every
decoded word encoded again, from the fields that the decoder read. -/

namespace Sys2Proof.Machine

open Sys2Proof.Laws

/-! ### The decoder on the word of an instruction -/

/-- A built word of family E is decoded by its low byte (R90). -/
theorem decode_wordXK_familyE (x : Reg) (kk : Byte) :
    decode (wordXK 0xE#4 x kk) = decodeFamilyE (wordXK 0xE#4 x kk) := by
  simp [decode]

/-- The decoder undoes the encoder: a family that names one instruction gives it back with its fields, and a family
that a low nibble or a low byte subdivides looks that up first. -/
theorem decode_encode (i : Instr) : decode (encode i) = .ok i := by
  cases i with
  | cls | ret => rfl
  | jp _ | call _ | ldI _ | jpV0 _ => simp [encode, decode]
  | seImm _ _ | sneImm _ _ | ldImm _ _ | addImm _ _ | rnd _ _ => simp [encode, decode]
  | seReg _ _ | sneReg _ _ | drw _ _ _ => simp [encode, decode]
  | ldReg x y | orReg x y | andReg x y | xorReg x y | addReg x y | subReg x y | shr x y | subnReg x y | shl x y =>
    simp [encode, decode_wordXYN_family8, decodeFamily8]
  | skp x | sknp x => simp [encode, decode_wordXK_familyE, decodeFamilyE]
  | ldVxDt x | ldVxK x | ldDtVx x | ldStVx x | addI x | ldF x | ldB x | ldMemVx x | ldVxMem x =>
    simp [encode, decode_wordXK_familyF, decodeFamilyF]

/-- Settles O1: the decoder undoes the encoder. -/
theorem decodeOfEncode : Obligations.DecodeOfEncode := decode_encode

/-- Settles O6: each listed word is computed. -/
theorem sampleWordsDecode : Obligations.SampleWordsDecode := by
  unfold Obligations.SampleWordsDecode
  decide

/-! ### The encoder on a decoded word -/

section
variable {op : Opcode} {i : Instr}

theorem fieldH_eq_of_toNat {n : Nat} (h : (fieldH op).toNat = n) : fieldH op = BitVec.ofNat 4 n := by
  rw [← h, BitVec.ofNat_toNat, BitVec.setWidth_eq]

theorem fieldN_eq_of_toNat {n : Nat} (h : (fieldN op).toNat = n) : fieldN op = BitVec.ofNat 4 n := by
  rw [← h, BitVec.ofNat_toNat, BitVec.setWidth_eq]

theorem wordA_of_fields {h : Nibble} (hh : fieldH op = h) : wordA h (fieldNNN op) = op := by
  rw [← hh, wordA_fields]

theorem wordXK_of_fields {h : Nibble} {kk : Byte} (hh : fieldH op = h) (hk : fieldKK op = kk) :
    wordXK h (fieldX op) kk = op := by
  rw [← hh, ← hk, wordXK_fields]

theorem wordXYN_of_fields {h n : Nibble} (hh : fieldH op = h) (hn : fieldN op = n) :
    wordXYN h (fieldX op) (fieldY op) n = op := by
  rw [← hh, ← hn, wordXYN_fields]

theorem encode_of_decodeFamily0 (hd : decodeFamily0 op = .ok i) : encode i = op := by
  unfold decodeFamily0 at hd
  split_ifs at hd with h h <;> cases hd <;> exact h.symm

theorem encode_of_decodeFamily8 (hh : fieldH op = 0x8#4) (hd : decodeFamily8 op = .ok i) : encode i = op := by
  simp only [decodeFamily8] at hd
  split at hd <;> cases hd <;> exact wordXYN_of_fields hh (fieldN_eq_of_toNat ‹_›)

theorem encode_of_decodeFamilyE (hh : fieldH op = 0xE#4) (hd : decodeFamilyE op = .ok i) : encode i = op := by
  simp only [decodeFamilyE] at hd
  split_ifs at hd with h h <;> cases hd <;> exact wordXK_of_fields hh h

theorem encode_of_decodeFamilyF (hh : fieldH op = 0xF#4) (hd : decodeFamilyF op = .ok i) : encode i = op := by
  simp only [decodeFamilyF] at hd
  split_ifs at hd with h h h h h h h h h <;> cases hd <;> exact wordXK_of_fields hh h

end

/-- Settles O2: the decoder names the family, and the fields it read are all of the word that is left. -/
theorem encodeOfDecode : Obligations.EncodeOfDecode := by
  intro op i hd
  simp only [decode] at hd
  split at hd
  case h_1 => exact encode_of_decodeFamily0 hd
  case h_9 h => exact encode_of_decodeFamily8 (fieldH_eq_of_toNat h) hd
  case h_15 h => exact encode_of_decodeFamilyE (fieldH_eq_of_toNat h) hd
  case h_16 h => exact encode_of_decodeFamilyF (fieldH_eq_of_toNat h) hd
  case h_2 h | h_3 h | h_11 h | h_12 h => cases hd; exact wordA_of_fields (fieldH_eq_of_toNat h)
  case h_4 h | h_5 h | h_7 h | h_8 h | h_13 h => cases hd; exact wordXK_of_fields (fieldH_eq_of_toNat h) rfl
  case h_14 h => cases hd; exact wordXYN_of_fields (fieldH_eq_of_toNat h) rfl
  case h_6 h | h_10 h =>
    split_ifs at hd with hn
    cases hd
    exact wordXYN_of_fields (fieldH_eq_of_toNat h) hn
  case h_17 => cases hd

/-! ### The opcode map -/

/-- The word of an instruction matches the instruction's row and lies outside the decode-failure space (R85, R91). -/
theorem tableRow_statement (i : Instr) : TableRow.Statement i := by
  cases i with
  | cls => exact TableRow.cls
  | ret => exact TableRow.ret
  | jp => exact TableRow.jp _
  | call => exact TableRow.call _
  | ldI => exact TableRow.ldI _
  | jpV0 => exact TableRow.jpV0 _
  | seImm => exact TableRow.seImm _ _
  | sneImm => exact TableRow.sneImm _ _
  | ldImm => exact TableRow.ldImm _ _
  | addImm => exact TableRow.addImm _ _
  | rnd => exact TableRow.rnd _ _
  | drw => exact TableRow.drw _ _ _
  | seReg => exact TableRow.seReg _ _
  | ldReg => exact TableRow.ldReg _ _
  | orReg => exact TableRow.orReg _ _
  | andReg => exact TableRow.andReg _ _
  | xorReg => exact TableRow.xorReg _ _
  | addReg => exact TableRow.addReg _ _
  | subReg => exact TableRow.subReg _ _
  | shr => exact TableRow.shr _ _
  | subnReg => exact TableRow.subnReg _ _
  | shl => exact TableRow.shl _ _
  | sneReg => exact TableRow.sneReg _ _
  | skp => exact TableRow.skp _
  | sknp => exact TableRow.sknp _
  | ldVxDt => exact TableRow.ldVxDt _
  | ldVxK => exact TableRow.ldVxK _
  | ldDtVx => exact TableRow.ldDtVx _
  | ldStVx => exact TableRow.ldStVx _
  | addI => exact TableRow.addI _
  | ldF => exact TableRow.ldF _
  | ldB => exact TableRow.ldB _
  | ldMemVx => exact TableRow.ldMemVx _
  | ldVxMem => exact TableRow.ldVxMem _

section
variable {op w : Opcode} {h n : Nibble} {kk : Byte}

/-- A row whose mask is the family nibble fixes the family (R85). -/
theorem fieldH_of_and_family (hand : op &&& 0xF000#16 = w) (hw : w = wordXK h 0 0) : fieldH op = h := by
  rw [← fieldH_wordXK h 0 0, ← hw, ← hand, TableRow.and_family, fieldH_wordXK]

theorem wordA_of_and_family (hand : op &&& 0xF000#16 = w) (hw : w = wordXK h 0 0) : wordA h (fieldNNN op) = op :=
  wordA_of_fields (fieldH_of_and_family hand hw)

theorem wordXK_of_and_family (hand : op &&& 0xF000#16 = w) (hw : w = wordXK h 0 0) :
    wordXK h (fieldX op) (fieldKK op) = op :=
  wordXK_of_fields (fieldH_of_and_family hand hw) rfl

theorem wordXYN_of_and_family (hand : op &&& 0xF000#16 = w) (hw : w = wordXK h 0 0) :
    wordXYN h (fieldX op) (fieldY op) (fieldN op) = op :=
  wordXYN_of_fields (fieldH_of_and_family hand hw) rfl

/-- A row whose mask is the family and the low nibble fixes both (R85). -/
theorem wordXYN_of_and_family_nibble (hand : op &&& 0xF00F#16 = w) (hw : w = wordXYN h 0 0 n) :
    wordXYN h (fieldX op) (fieldY op) n = op := by
  have e : wordXYN (fieldH op) 0 0 (fieldN op) = wordXYN h 0 0 n := by rw [← TableRow.and_family_nibble, hand, hw]
  exact wordXYN_of_fields (by simpa using congrArg fieldH e) (by simpa using congrArg fieldN e)

/-- A row whose mask is the family and the low byte fixes both (R85). -/
theorem wordXK_of_and_family_byte (hand : op &&& 0xF0FF#16 = w) (hw : w = wordXK h 0 kk) :
    wordXK h (fieldX op) kk = op := by
  have e : wordXK (fieldH op) 0 (fieldKK op) = wordXK h 0 kk := by rw [← TableRow.and_family_byte, hand, hw]
  exact wordXK_of_fields (by simpa using congrArg fieldH e) (by simpa using congrArg fieldKK e)

end

/-- A word that matches a row is the word of an instruction of that row: the one with the operands read off the word. -/
theorem exists_encode_of_matchesRow {op : Opcode} {j : Instr} (hmatch : matchesRow op j = true) :
    ∃ i, encode i = op ∧ opcodeRow i = opcodeRow j := by
  have hand : op &&& (opcodeRow j).mask = (opcodeRow j).word := by simpa [matchesRow] using hmatch
  cases j with
  | cls => exact ⟨.cls, hand.symm.trans BitVec.and_allOnes, rfl⟩
  | ret => exact ⟨.ret, hand.symm.trans BitVec.and_allOnes, rfl⟩
  | jp => exact ⟨.jp _, wordA_of_and_family hand rfl, rfl⟩
  | call => exact ⟨.call _, wordA_of_and_family hand rfl, rfl⟩
  | ldI => exact ⟨.ldI _, wordA_of_and_family hand rfl, rfl⟩
  | jpV0 => exact ⟨.jpV0 _, wordA_of_and_family hand rfl, rfl⟩
  | seImm => exact ⟨.seImm _ _, wordXK_of_and_family hand rfl, rfl⟩
  | sneImm => exact ⟨.sneImm _ _, wordXK_of_and_family hand rfl, rfl⟩
  | ldImm => exact ⟨.ldImm _ _, wordXK_of_and_family hand rfl, rfl⟩
  | addImm => exact ⟨.addImm _ _, wordXK_of_and_family hand rfl, rfl⟩
  | rnd => exact ⟨.rnd _ _, wordXK_of_and_family hand rfl, rfl⟩
  | drw => exact ⟨.drw _ _ _, wordXYN_of_and_family hand rfl, rfl⟩
  | seReg => exact ⟨.seReg _ _, wordXYN_of_and_family_nibble hand rfl, rfl⟩
  | ldReg => exact ⟨.ldReg _ _, wordXYN_of_and_family_nibble hand rfl, rfl⟩
  | orReg => exact ⟨.orReg _ _, wordXYN_of_and_family_nibble hand rfl, rfl⟩
  | andReg => exact ⟨.andReg _ _, wordXYN_of_and_family_nibble hand rfl, rfl⟩
  | xorReg => exact ⟨.xorReg _ _, wordXYN_of_and_family_nibble hand rfl, rfl⟩
  | addReg => exact ⟨.addReg _ _, wordXYN_of_and_family_nibble hand rfl, rfl⟩
  | subReg => exact ⟨.subReg _ _, wordXYN_of_and_family_nibble hand rfl, rfl⟩
  | shr => exact ⟨.shr _ _, wordXYN_of_and_family_nibble hand rfl, rfl⟩
  | subnReg => exact ⟨.subnReg _ _, wordXYN_of_and_family_nibble hand rfl, rfl⟩
  | shl => exact ⟨.shl _ _, wordXYN_of_and_family_nibble hand rfl, rfl⟩
  | sneReg => exact ⟨.sneReg _ _, wordXYN_of_and_family_nibble hand rfl, rfl⟩
  | skp => exact ⟨.skp _, wordXK_of_and_family_byte hand rfl, rfl⟩
  | sknp => exact ⟨.sknp _, wordXK_of_and_family_byte hand rfl, rfl⟩
  | ldVxDt => exact ⟨.ldVxDt _, wordXK_of_and_family_byte hand rfl, rfl⟩
  | ldVxK => exact ⟨.ldVxK _, wordXK_of_and_family_byte hand rfl, rfl⟩
  | ldDtVx => exact ⟨.ldDtVx _, wordXK_of_and_family_byte hand rfl, rfl⟩
  | ldStVx => exact ⟨.ldStVx _, wordXK_of_and_family_byte hand rfl, rfl⟩
  | addI => exact ⟨.addI _, wordXK_of_and_family_byte hand rfl, rfl⟩
  | ldF => exact ⟨.ldF _, wordXK_of_and_family_byte hand rfl, rfl⟩
  | ldB => exact ⟨.ldB _, wordXK_of_and_family_byte hand rfl, rfl⟩
  | ldMemVx => exact ⟨.ldMemVx _, wordXK_of_and_family_byte hand rfl, rfl⟩
  | ldVxMem => exact ⟨.ldVxMem _, wordXK_of_and_family_byte hand rfl, rfl⟩

/-- Settles O5: a decoded word is its instruction's own, which matches that instruction's row; and a word that matches
a row is the word of an instruction of the row, which the decoder gives back. -/
theorem decodeFollowsOpcodeMap : Obligations.DecodeFollowsOpcodeMap := by
  refine ⟨fun op i hd => ?_, fun op j hmatch => ?_⟩
  · obtain rfl := encodeOfDecode op i hd
    exact (tableRow_statement i).1
  · obtain ⟨i, rfl, hrow⟩ := exists_encode_of_matchesRow hmatch
    exact ⟨i, decode_encode i, hrow⟩

/-! ### The decode-failure space -/

section
variable {op : Opcode} {e : DecodeError}

theorem decodeFamily0_error (hd : decodeFamily0 op = .error e) :
    e = .decodeFailure op ∧ wellFormedFamily0 op = false := by
  simp only [decodeFamily0, ite_ok_eq_error_iff, Except.error.injEq] at hd
  obtain ⟨hcls, hret, rfl⟩ := hd
  exact ⟨rfl, by simp [wellFormedFamily0, hcls, hret]⟩

theorem decodeFamily8_error (hd : decodeFamily8 op = .error e) :
    e = .decodeFailure op ∧ wellFormedFamily8 (fieldN op).toNat = false := by
  simp only [decodeFamily8] at hd
  split at hd <;> cases hd
  exact ⟨rfl, by simp only [wellFormedFamily8, List.contains_eq_mem, decide_eq_false_iff_not]; simp_all⟩

theorem decodeFamilyE_error (hd : decodeFamilyE op = .error e) :
    e = .decodeFailure op ∧ wellFormedFamilyE (fieldKK op).toNat = false := by
  simp only [decodeFamilyE, ite_ok_eq_error_iff, Except.error.injEq, fieldKK_eq_iff, ← fieldKK_toNat] at hd
  obtain ⟨h9E, hA1, rfl⟩ := hd
  exact ⟨rfl, by simp_all [wellFormedFamilyE]⟩

theorem decodeFamilyF_error (hd : decodeFamilyF op = .error e) :
    e = .decodeFailure op ∧ wellFormedFamilyF (fieldKK op).toNat = false := by
  simp only [decodeFamilyF, ite_ok_eq_error_iff, Except.error.injEq, fieldKK_eq_iff, ← fieldKK_toNat] at hd
  exact ⟨by simp_all, by simp_all [wellFormedFamilyF]⟩

/-- Families 5 and 9 have one row each, guarded by a low nibble of 0 (R88). -/
theorem family59_error {i : Instr}
    (hd : (if fieldN op = 0 then .ok i else .error (.decodeFailure op)) = Except.error e) :
    e = .decodeFailure op ∧ wellFormedFamily59 (fieldN op).toNat = false := by
  simp only [ite_ok_eq_error_iff, Except.error.injEq] at hd
  obtain ⟨hn, rfl⟩ := hd
  exact ⟨rfl, by simpa [wellFormedFamily59, ← BitVec.toNat_inj] using hn⟩

/-- The decoder refuses words of the decode-failure space alone, naming the word. -/
theorem decode_error (hd : decode op = .error e) : e = .decodeFailure op ∧ wellFormedWord op = false := by
  rw [TableRow.wellFormedWord_fields]
  simp only [decode] at hd
  split at hd
  case h_1 h => rw [h]; exact decodeFamily0_error hd
  case h_6 h | h_10 h => rw [h]; exact family59_error hd
  case h_9 h => rw [h]; exact decodeFamily8_error hd
  case h_15 h => rw [h]; exact decodeFamilyE_error hd
  case h_16 h => rw [h]; exact decodeFamilyF_error hd
  case h_17 => have := (fieldH op).isLt; simp only [imp_false] at *; omega
  all_goals cases hd

end

theorem decode_of_family0 {op : Opcode} (h : op.toNat / 4096 = 0x0) : decode op = decodeFamily0 op := by
  simp only [decode, fieldH_toNat, h]

/-- Settles O4: a word of family 0 is decoded by that family's two words; and a decoded word is its instruction's own,
which is well formed, while a refused one is not. -/
theorem decodeFailureSpace : Obligations.DecodeFailureSpace := by
  refine ⟨fun op hop => ⟨?_, ?_⟩, fun op => ?_⟩
  · rw [decode_of_family0 (by omega)]
    rintro ⟨i, hd⟩
    unfold decodeFamily0 at hd
    split_ifs at hd with hcls hret
    · exact .inl hcls
    · exact .inr hret
  · rintro (rfl | rfl)
    · exact ⟨.cls, decode_encode .cls⟩
    · exact ⟨.ret, decode_encode .ret⟩
  · cases hd : decode op with
    | ok i =>
      obtain rfl := encodeOfDecode op i hd
      exact .inl ⟨(tableRow_statement i).2, i, rfl⟩
    | error e =>
      obtain ⟨rfl, hwf⟩ := decode_error hd
      exact .inr ⟨hwf, rfl⟩

end Sys2Proof.Machine
end

section
/-! What every instruction can do, said once (R11, R229): the checks of its rule in their order, its writes, and the
three ways it can end. -/

namespace Sys2Proof.Machine

/-! ### The normal form of an instruction's rule -/

/-- How many bytes from the address `I` on the instruction's rule checks (R10, R171): the sprite rows of Dxyn, the
digits of Fx33 and the registers of Fx55 and Fx65. -/
def checkedBytes : Instr → Nat
  | .drw _ _ n => n.toNat
  | .ldB _ => 3
  | .ldMemVx x | .ldVxMem x => x.toNat + 1
  | _ => 0

/-- The fault that the instruction's rule raises before it looks at the pc (R229). -/
def earlyFault (i : Instr) (s : State) : Option Raise :=
  match i with
  | .call _ => if s.sp.val < 16 then none else some raiseStackOverflow
  | .ret => if 0 < s.sp.val then none else some raiseStackUnderflow
  | .skp x | .sknp x => if (s.reg x).toNat > 15 then some (raiseKeyIndex (s.reg x).toNat) else none
  | i => if checkedBytes i > 0 ∧ s.i.toNat + checkedBytes i - 1 > 0xFFF then some (raiseAddress 0x1000) else none

/-- The natural that the rule checks against 0xFFF (R12, R225): what the pc becomes, except for 2nnn, whose return
address it is. -/
def checkedAddr : Instr → State → Nat
  | .jp nnn, _ => nnn.toNat
  | .jpV0 nnn, s => (s.reg 0).toNat + nnn.toNat
  | .ret, s => if h : 0 < s.sp.val then (topReturn s h).toNat else 0
  | i, s => successor i s

/-- The pc after the instruction. -/
def nextPc : Instr → State → Addr
  | .call nnn, _ => nnn
  | i, s => BitVec.ofNat 12 (checkedAddr i s)

/-- The writes of the instruction's rule but the last one, of the pc. -/
def effect : Instr → State → State
  | .cls, s => (s.setFb clearScreen).markDirty
  | .ret, s => dropReturn s
  | .call _, s => if h : s.sp.val < 16 then pushReturn (BitVec.ofNat 12 s.pcSeq) s h else s
  | .ldImm x kk, s => s.setReg x kk
  | .addImm x kk, s => s.setReg x (BitVec.ofNat 8 ((s.reg x).toNat + kk.toNat))
  | .ldReg x y, s => s.setReg x (s.reg y)
  | .orReg x y, s => s.setReg x (s.reg x ||| s.reg y)
  | .andReg x y, s => s.setReg x (s.reg x &&& s.reg y)
  | .xorReg x y, s => s.setReg x (s.reg x ^^^ s.reg y)
  | .addReg x y, s =>
    (s.setReg x (BitVec.ofNat 8 ((s.reg x).toNat + (s.reg y).toNat))).setVf (carry8 ((s.reg x).toNat + (s.reg y).toNat))
  | .subReg x y, s =>
    (s.setReg x (BitVec.ofNat 8 ((s.reg x).toNat + 256 - (s.reg y).toNat))).setVf (noBorrow (s.reg x) (s.reg y))
  | .subnReg x y, s =>
    (s.setReg x (BitVec.ofNat 8 ((s.reg y).toNat + 256 - (s.reg x).toNat))).setVf (noBorrow (s.reg y) (s.reg x))
  | .shr x _, s =>
    (s.setVf (shiftedOutRight (s.reg x))).setReg x
      (BitVec.ofNat 8 (((s.setVf (shiftedOutRight (s.reg x))).reg x).toNat / 2))
  | .shl x _, s =>
    (s.setVf (shiftedOutLeft (s.reg x))).setReg x
      (BitVec.ofNat 8 (((s.setVf (shiftedOutLeft (s.reg x))).reg x).toNat * 2))
  | .rnd x kk, s => s.setReg x (s.rnd &&& kk)
  | .ldI nnn, s => s.setI nnn
  | .addI x, s =>
    (s.setI (BitVec.ofNat 12 (s.i.toNat + (s.reg x).toNat))).setVf (carry12 (s.i.toNat + (s.reg x).toNat))
  | .ldF x, s => s.setI (glyphAddr s x)
  | .drw x y n, s =>
    let c := drawRows s (s.reg x).toNat (s.reg y).toNat n.toNat ⟨s.fb, false⟩
    ((s.setFb c.fb).setVf (flagByte c.collision)).markDirty
  | .ldVxDt x, s => s.setReg x s.dt
  | .ldVxK x, s => s.setAwait (.awaitingKey x)
  | .ldDtVx x, s => s.setDt (s.reg x)
  | .ldStVx x, s => s.setSt (s.reg x)
  | .ldB x, s => storeBcd (s.reg x) s
  | .ldMemVx x, s => storeRegs (x.toNat + 1) s
  | .ldVxMem x, s => loadRegs (x.toNat + 1) s
  | .jp _, s | .jpV0 _, s | .seImm _ _, s | .sneImm _ _, s | .seReg _ _, s | .sneReg _ _, s | .skp _, s
  | .sknp _, s => s

/-- The rule of every instruction: its own checks, the check of the pc, its writes. -/
def ruleOf (i : Instr) (s : State) : Except Raise State :=
  match earlyFault i s with
  | some e => .error e
  | none =>
    if checkedAddr i s > 0xFFF then .error (raisePc (checkedAddr i s)) else .ok ((effect i s).withPc (nextPc i s))

/-- A rule with no check of its own, whose next address is the one it checks. -/
theorem ruleOf_eq_setPc {i : Instr} {s : State} (he : earlyFault i s = none)
    (hn : nextPc i s = BitVec.ofNat 12 (checkedAddr i s)) : ruleOf i s = setPc (checkedAddr i s) (effect i s) := by
  rw [ruleOf, he, hn, setPc]

/-- A rule whose one own check is the range check. -/
theorem ruleOf_eq_rangeCheck {i : Instr} {s : State}
    (he : earlyFault i s =
      if checkedBytes i > 0 ∧ s.i.toNat + checkedBytes i - 1 > 0xFFF then some (raiseAddress 0x1000) else none)
    (hn : nextPc i s = BitVec.ofNat 12 (checkedAddr i s)) :
    ruleOf i s = rangeCheck s.i.toNat (checkedBytes i) (setPc (checkedAddr i s) (effect i s)) := by
  rw [rangeCheck_eq_ite _ _ _ (addr_le s.i), ruleOf, he, hn, setPc]
  split_ifs <;> rfl

/-- A rule whose one own check is the one of the key index. -/
theorem ruleOf_eq_keyCheck {i : Instr} {s : State} (k : Nat)
    (he : earlyFault i s = if k > 15 then some (raiseKeyIndex k) else none)
    (hn : nextPc i s = BitVec.ofNat 12 (checkedAddr i s)) :
    ruleOf i s = keyCheck k (setPc (checkedAddr i s) (effect i s)) := by
  rw [keyCheck, ruleOf, he, hn, setPc]
  split_ifs <;> rfl

theorem checkedAddr_eq_skipTarget {i : Instr} {s : State} (taken : Bool) (ht : skipTaken i s = taken)
    (hc : checkedAddr i s = successor i s) : checkedAddr i s = skipTarget taken s := by
  rw [hc, skipTarget_eq_successor i s taken ht]

/-- Every instruction completes its rule. -/
theorem exec_eq_complete_ruleOf (i : Instr) (s : State) : exec i s = complete i s (ruleOf i s) := by
  cases i with
  | cls | ldImm | addImm | ldReg | orReg | andReg | xorReg | addReg | subReg | shr | subnReg | shl | ldI | rnd | ldVxDt
  | ldVxK | ldDtVx | ldStVx | addI | ldF | jpV0 | jp => rw [ruleOf_eq_setPc rfl rfl]; rfl
  | drw | ldB | ldMemVx | ldVxMem => rw [ruleOf_eq_rangeCheck rfl rfl]; rfl
  | seImm x kk => rw [ruleOf_eq_setPc rfl rfl, checkedAddr_eq_skipTarget (s.reg x == kk) rfl rfl]; rfl
  | sneImm x kk =>
    have ht : skipTaken (.sneImm x kk) s = (s.reg x != kk) := by simp [skipTaken, bne, beq_eq_decide]
    rw [ruleOf_eq_setPc rfl rfl, checkedAddr_eq_skipTarget _ ht rfl]; rfl
  | seReg x y => rw [ruleOf_eq_setPc rfl rfl, checkedAddr_eq_skipTarget (s.reg x == s.reg y) rfl rfl]; rfl
  | sneReg x y =>
    have ht : skipTaken (.sneReg x y) s = (s.reg x != s.reg y) := by simp [skipTaken, bne, beq_eq_decide]
    rw [ruleOf_eq_setPc rfl rfl, checkedAddr_eq_skipTarget _ ht rfl]; rfl
  | skp x | sknp x =>
    rw [ruleOf_eq_keyCheck (s.reg x).toNat rfl rfl, checkedAddr_eq_skipTarget _ rfl rfl]; rfl
  | ret =>
    show complete .ret s _ = _
    by_cases h : 0 < s.sp.val
    · simp only [ruleOf, earlyFault, checkedAddr, nextPc, h, if_true, dif_pos]; rfl
    · simp only [ruleOf, earlyFault, h, if_false, dif_neg, not_false_eq_true]
  | call nnn =>
    show complete (.call nnn) s _ = _
    by_cases h : s.sp.val < 16
    · simp only [ruleOf, earlyFault, nextPc, effect, setPc_addr, h, if_true, dif_pos]; rfl
    · simp only [ruleOf, earlyFault, h, if_false, dif_neg, not_false_eq_true]

/-! ### The three ways an instruction can end -/

section
variable {i : Instr} {s : State}

theorem exec_of_earlyFault {e : Raise} (he : earlyFault i s = some e) :
    exec i s = .next (takeFault e (some (encode i)) s) := by
  rw [exec_eq_complete_ruleOf, ruleOf, he, complete_error]

theorem exec_of_pc_above (he : earlyFault i s = none) (hpc : checkedAddr i s > 0xFFF) :
    exec i s = .next (takeFault (raisePc (checkedAddr i s)) (some (encode i)) s) := by
  rw [exec_eq_complete_ruleOf, ruleOf, he]
  simp only [if_pos hpc, complete_error]

theorem exec_of_fits (he : earlyFault i s = none) (hpc : checkedAddr i s ≤ 0xFFF) :
    exec i s = .next ((effect i s).withPc (nextPc i s)) := by
  rw [exec_eq_complete_ruleOf, ruleOf, he]
  simp only [if_neg (Nat.not_lt.2 hpc), complete_ok]

theorem exec_faulted_of_earlyFault {e : Raise} (he : earlyFault i s = some e) :
    ∃ t, exec i s = .next t ∧ Faulted i e.cause e.info s t :=
  ⟨_, exec_of_earlyFault he, takeFault_faulted i s e⟩

theorem exec_faulted_of_pc_above (he : earlyFault i s = none) (hpc : checkedAddr i s > 0xFFF) :
    ∃ t, exec i s = .next t ∧ Faulted i .pcOutOfRange (some (checkedAddr i s)) s t :=
  ⟨_, exec_of_pc_above he hpc, takeFault_faulted i s (raisePc (checkedAddr i s))⟩

end

/-! ### The faults of an instruction are the fault conditions -/

/-- A bound on each address that a rule checks: the value R225 records is at most 0x10FE. -/
theorem checkedAddr_le (i : Instr) (s : State) : checkedAddr i s ≤ 0x10FE := by
  have hpc := s.pc.isLt
  cases i with
  | jp nnn => have := nnn.isLt; simp only [checkedAddr]; omega
  | jpV0 nnn => have := nnn.isLt; have := (s.reg 0).isLt; simp only [checkedAddr]; omega
  | ret => simp only [checkedAddr]; split <;> omega
  | _ => simp only [checkedAddr, successor]; split <;> omega

theorem faultCondition_pcOutOfRange_iff (i : Instr) (s : State) (info : Option Nat) :
    FaultCondition i s .pcOutOfRange info ↔ checkedAddr i s > 0xFFF ∧ info = some (checkedAddr i s) := by
  cases i with
  | jp nnn => have := addr_le nnn; simp [FaultCondition, checkedAddr]; omega
  | ret => simp only [FaultCondition, checkedAddr]; split <;> simp [addr_le]
  | _ => simp [FaultCondition, checkedAddr]

/-- The raise that a fault condition describes, for the causes checked before the pc. -/
theorem earlyFault_of_faultCondition {i : Instr} {s : State} {c : Cause} {info : Option Nat}
    (h : FaultCondition i s c info) (hc : c ≠ .pcOutOfRange) : earlyFault i s = some ⟨c, info⟩ := by
  cases c with
  | decodeFailure => exact h.elim
  | pcOutOfRange => exact absurd rfl hc
  | stackOverflow =>
    obtain ⟨⟨nnn, rfl⟩, hsp, rfl⟩ := h
    simp [earlyFault, hsp, raiseStackOverflow]
  | stackUnderflow =>
    obtain ⟨rfl, hsp, rfl⟩ := h
    simp [earlyFault, hsp, raiseStackUnderflow]
  | keyIndexOutOfRange =>
    obtain ⟨x, rfl | rfl, hx, rfl⟩ := h <;> exact if_pos hx
  | addressOutOfRange =>
    obtain ⟨⟨x, y, n, rfl, hn, hspan⟩ | ⟨x, rfl, hspan⟩ | ⟨x, rfl, hspan⟩ | ⟨x, rfl, hspan⟩, rfl⟩ := h
    · exact if_pos ⟨Nat.pos_of_ne_zero fun h0 => hn (BitVec.eq_of_toNat_eq h0), hspan⟩
    all_goals exact if_pos ⟨Nat.succ_pos _, hspan⟩

/-- The check that raised a fault before the pc's, and the fault it raised. -/
theorem check_of_raise {p : Prop} [Decidable p] {r e : Raise} (h : (if p then some r else none) = some e) :
    p ∧ e = r := by
  split_ifs at h with hp
  exact ⟨hp, (Option.some.inj h).symm⟩

theorem faultCondition_of_earlyFault {i : Instr} {s : State} {e : Raise} (h : earlyFault i s = some e) :
    FaultCondition i s e.cause e.info ∧ e.cause ≠ .pcOutOfRange := by
  cases i with
  | call nnn =>
    simp only [earlyFault] at h
    split_ifs at h with hsp
    cases h
    exact ⟨⟨⟨nnn, rfl⟩, by omega, rfl⟩, by decide⟩
  | ret =>
    simp only [earlyFault] at h
    split_ifs at h with hsp
    cases h
    exact ⟨⟨rfl, by omega, rfl⟩, by decide⟩
  | skp x =>
    obtain ⟨hkey, rfl⟩ := check_of_raise h
    exact ⟨⟨x, .inl rfl, hkey, rfl⟩, nofun⟩
  | sknp x =>
    obtain ⟨hkey, rfl⟩ := check_of_raise h
    exact ⟨⟨x, .inr rfl, hkey, rfl⟩, nofun⟩
  | drw x y n =>
    obtain ⟨⟨hpos, hspan⟩, rfl⟩ := check_of_raise h
    have hn : n ≠ 0 := by rintro rfl; exact Nat.lt_irrefl 0 hpos
    exact ⟨⟨.inl ⟨x, y, n, rfl, hn, hspan⟩, rfl⟩, nofun⟩
  | ldB x =>
    obtain ⟨⟨_, hspan⟩, rfl⟩ := check_of_raise h
    exact ⟨⟨.inr (.inl ⟨x, rfl, hspan⟩), rfl⟩, nofun⟩
  | ldMemVx x =>
    obtain ⟨⟨_, hspan⟩, rfl⟩ := check_of_raise h
    exact ⟨⟨.inr (.inr (.inl ⟨x, rfl, hspan⟩)), rfl⟩, nofun⟩
  | ldVxMem x =>
    obtain ⟨⟨_, hspan⟩, rfl⟩ := check_of_raise h
    exact ⟨⟨.inr (.inr (.inr ⟨x, rfl, hspan⟩)), rfl⟩, nofun⟩
  | _ => cases h

/-- The checks before the pc's pass exactly where no condition but PcOutOfRange holds. -/
theorem earlyFault_eq_none_iff (i : Instr) (s : State) :
    earlyFault i s = none ↔ ∀ c info, FaultCondition i s c info → c = .pcOutOfRange := by
  constructor
  · intro he c info h
    by_contra hc
    rw [earlyFault_of_faultCondition h hc] at he
    cases he
  · intro h
    cases he : earlyFault i s with
    | none => rfl
    | some e => exact absurd (h _ _ (faultCondition_of_earlyFault he).1) (faultCondition_of_earlyFault he).2

/-- How an instruction ends: in a fault whose condition holds, PcOutOfRange last, or with all its writes, and then no
condition holds. -/
theorem exec_cases (i : Instr) (s : State) :
    (∃ e, exec i s = .next (takeFault e (some (encode i)) s) ∧ FaultCondition i s e.cause e.info ∧
      (e.cause = .pcOutOfRange ↔ earlyFault i s = none)) ∨
    (exec i s = .next ((effect i s).withPc (nextPc i s)) ∧ earlyFault i s = none ∧ checkedAddr i s ≤ 0xFFF) := by
  cases he : earlyFault i s with
  | some e =>
    obtain ⟨hcond, hcause⟩ := faultCondition_of_earlyFault he
    exact .inl ⟨e, exec_of_earlyFault he, hcond, by simp [hcause]⟩
  | none =>
    by_cases hpc : checkedAddr i s > 0xFFF
    · exact .inl ⟨_, exec_of_pc_above he hpc, (faultCondition_pcOutOfRange_iff i s _).2 ⟨hpc, rfl⟩, by simp [raisePc]⟩
    · exact .inr ⟨exec_of_fits he (by omega), rfl, by omega⟩

theorem not_faultCondition {i : Instr} {s : State} (he : earlyFault i s = none) (hpc : checkedAddr i s ≤ 0xFFF)
    (c : Cause) (info : Option Nat) : ¬ FaultCondition i s c info := by
  intro h
  obtain rfl := (earlyFault_eq_none_iff i s).1 he c info h
  have := ((faultCondition_pcOutOfRange_iff i s info).1 h).1
  omega

/-! ### The range check -/

section
variable {i : Instr} {s : State}
  (hform : earlyFault i s =
    if checkedBytes i > 0 ∧ s.i.toNat + checkedBytes i - 1 > 0xFFF then some (raiseAddress 0x1000) else none)
include hform

theorem earlyFault_eq_none_iff_span_fits :
    earlyFault i s = none ↔ checkedBytes i = 0 ∨ s.i.toNat + checkedBytes i - 1 ≤ 0xFFF := by
  rw [hform, ite_eq_right_iff]
  simp only [reduceCtorEq, imp_false]
  omega

theorem exec_faulted_of_span_passes (hpos : 0 < checkedBytes i) (h : s.i.toNat + checkedBytes i - 1 > 0xFFF) :
    ∃ t, exec i s = .next t ∧ Faulted i .addressOutOfRange (some 0x1000) s t :=
  exec_faulted_of_earlyFault (by rw [hform, if_pos ⟨hpos, h⟩])

end

/-! ### What an instruction leaves unchanged -/

theorem Frame.refl (ws : List Reg) (ps : List Part) (s : State) : Frame ws ps s s :=
  ⟨fun _ _ => rfl, fun p _ => by cases p <;> simp [Unchanged]⟩

/-- Entering or leaving the wait changes nothing but the await state. -/
theorem setAwait_frame (s : State) (a : Await) : Frame [] [.await] s (s.setAwait a) := by
  refine ⟨fun r _ => setAwait_reg s a r, fun p hp => ?_⟩
  cases p with
  | await => exact absurd List.mem_cons_self hp
  | _ => simp [Unchanged]

theorem pushReturn_frame (s : State) (a : Addr) (h : s.sp.val < 16) : Frame [] [.stack] s (pushReturn a s h) := by
  refine ⟨fun r _ => rfl, fun p hp => ?_⟩
  cases p with
  | stack => exact absurd List.mem_cons_self hp
  | _ => simp [Unchanged]

theorem dropReturn_frame (s : State) : Frame [] [.stack] s (dropReturn s) := by
  refine ⟨fun r _ => rfl, fun p hp => ?_⟩
  cases p with
  | stack => exact absurd List.mem_cons_self hp
  | _ => simp [Unchanged]

/-- A new memory changes nothing but the memory. -/
theorem mem_frame (s : State) (m : Memory) : Frame [] [.memory] s { s with mem := m } := by
  refine ⟨fun r _ => rfl, fun p hp => ?_⟩
  cases p with
  | memory => exact absurd List.mem_cons_self hp
  | _ => simp [Unchanged]

/-- The loads of Fx65 change nothing but the registers V0 to Vx. -/
theorem loadRegs_frame (x : Reg) (s : State) :
    Frame (destRegs (.ldVxMem x)) [] s (loadRegs (x.toNat + 1) s) := by
  refine ⟨fun r hr => ?_, fun p _ => ?_⟩
  · rw [loadRegs_reg _ _ _ x.isLt, if_neg]
    intro hlt
    exact hr (List.mem_map.2 ⟨r.toNat, List.mem_range.2 hlt, regOfIndex_toNat r⟩)
  · rw [loadRegs_only_v]
    cases p with
    | memory => exact fun _ => rfl
    | _ => simp [Unchanged]

/-- The writes of a rule stay within the frame that the instruction's table entry gives. -/
theorem effect_frame (i : Instr) (s : State) : Frame (destRegs i) (destParts i) s (effect i s) := by
  cases i with
  | jp | jpV0 | seImm | sneImm | seReg | sneReg | skp | sknp => exact Frame.refl _ _ s
  | cls => exact ((setFb_frame s _).trans (markDirty_frame _)).mono (fun _ h => h) (by simp [destParts])
  | ret => exact (dropReturn_frame s).mono (fun _ h => h) (by simp [destParts])
  | call nnn =>
    simp only [effect]
    split
    · exact (pushReturn_frame s _ _).mono (fun _ h => h) (by simp [destParts])
    · exact Frame.refl _ _ s
  | ldImm | addImm | ldReg | orReg | andReg | xorReg | rnd | ldVxDt =>
    exact (setReg_frame s _ _).mono (fun _ h => h) (by simp)
  | addReg | subReg | subnReg => exact ((setReg_frame s _ _).trans (setReg_frame _ _ _)).mono (fun _ h => h) (by simp)
  | shr | shl => exact ((setReg_frame s _ _).trans (setReg_frame _ _ _)).mono (by simp [destRegs]) (by simp)
  | ldI | ldF => exact (setI_frame s _).mono (fun _ h => h) (by simp [destParts])
  | addI => exact ((setI_frame s _).trans (setReg_frame _ _ _)).mono (fun _ h => h) (by simp [destParts])
  | drw =>
    exact (((setFb_frame s _).trans (setReg_frame _ _ _)).trans (markDirty_frame _)).mono (fun _ h => h)
      (by simp [destParts])
  | ldVxK => exact (setAwait_frame s _).mono (fun _ h => h) (by simp [destParts])
  | ldDtVx => exact (setDt_frame s _).mono (fun _ h => h) (by simp [destParts])
  | ldStVx => exact (setSt_frame s _).mono (fun _ h => h) (by simp [destParts])
  | ldB x => exact (mem_frame s _).mono (fun _ h => h) (by simp [destParts])
  | ldMemVx x =>
    rw [effect, storeRegs_only_mem]
    exact (mem_frame s _).mono (fun _ h => h) (by simp [destParts])
  | ldVxMem x => exact (loadRegs_frame x s).mono (fun _ h => h) (by simp)

/-- Setting the pc after the writes stays within the frame, since every instruction may write the pc. -/
theorem effect_withPc_frame (i : Instr) (s : State) (a : Addr) :
    Frame (destRegs i) (destParts i) s ((effect i s).withPc a) := by
  have hpc : Part.pc ∈ destParts i := by cases i <;> simp [destParts]
  exact ((effect_frame i s).trans (withPc_frame _ a)).mono (by simp) (by simp [or_imp, hpc])

/-- Of memory the writes of a rule reach the bytes that the instruction stores. -/
theorem effect_sameMemoryOutside (i : Instr) (s : State) :
    SameMemoryOutside s.i.toNat (storedBytes i) s (effect i s) := by
  cases i with
  | ldB x => exact storeBcd_sameMemoryOutside (s.reg x) s
  | ldMemVx x => exact storeRegs_sameMemoryOutside (x.toNat + 1) s
  | _ => exact (effect_frame _ s).sameMemoryOutside (by simp [destParts]) _ _

/-- Settles O22: an instruction that completes leaves what its writes leave, and one that faults leaves all but the
record. -/
theorem everyInstructionKeepsItsFrame : Obligations.EveryInstructionKeepsItsFrame := by
  intro i s
  rcases exec_cases i s with ⟨e, hexec, -, -⟩ | ⟨hexec, -, -⟩
  · exact ⟨_, hexec, .inr ⟨e.cause, e.info, takeFault_faulted i s e⟩⟩
  · exact ⟨_, hexec, .inl ⟨effect_withPc_frame i s _, effect_sameMemoryOutside i s⟩⟩

/-- No instruction that completes writes the fault record. -/
theorem effect_fault (i : Instr) (s : State) : (effect i s).fault = s.fault :=
  (effect_frame i s).2 .fault (by cases i <;> simp [destParts])

/-- Settles O23: an instruction that faults records a condition that holds, PcOutOfRange only where the earlier checks
pass; and where it completes no condition holds. -/
theorem faultCausesOfInstructions : Obligations.FaultCausesOfInstructions := by
  intro i s hf
  rcases exec_cases i s with ⟨e, hexec, hcond, hpc⟩ | ⟨hexec, he, hpc⟩
  · refine ⟨_, hexec, ⟨fun _ => ⟨_, _, hcond⟩, fun _ => nofun⟩, fun r hr => ?_⟩
    cases hr
    exact ⟨hcond, fun hc => (earlyFault_eq_none_iff i s).1 (hpc.1 hc)⟩
  · have hnone : ((effect i s).withPc (nextPc i s)).fault = none := (effect_fault i s).trans hf
    refine ⟨_, hexec, ⟨fun h => absurd hnone h, ?_⟩, fun r hr => ?_⟩
    · rintro ⟨c, info, h⟩
      exact absurd h (not_faultCondition he hpc c info)
    · rw [hnone] at hr
      cases hr

/-- Every instruction but the jumps and the return checks its successor (R225). -/
theorem checkedAddr_eq_successor {i : Instr} (s : State) (hret : i ≠ .ret) (hjp : ∀ nnn, i ≠ .jp nnn)
    (hjpV0 : ∀ nnn, i ≠ .jpV0 nnn) : checkedAddr i s = successor i s := by
  cases i with
  | ret => exact absurd rfl hret
  | jp nnn => exact absurd rfl (hjp nnn)
  | jpV0 nnn => exact absurd rfl (hjpV0 nnn)
  | _ => rfl

/-- Settles O24: the successor that the instruction checks does not fit, so it cannot complete. -/
theorem noSuccessorAboveTop : Obligations.NoSuccessorAboveTop := by
  intro i s _ htop hret hjp hjpV0
  have hchecked := checkedAddr_eq_successor s hret hjp hjpV0
  rcases exec_cases i s with ⟨e, hexec, hcond, hpc⟩ | ⟨-, -, hfits⟩
  · refine ⟨_, _, hexec, takeFault_fault _ _ _, rfl, rfl, fun hc => ?_, fun hlast => ?_⟩
    · rw [show e.cause = .pcOutOfRange from hc, faultCondition_pcOutOfRange_iff, hchecked] at hcond
      exact hcond.2
    · exact hpc.2 ((earlyFault_eq_none_iff i s).2 hlast)
  · rw [hchecked, successor] at hfits
    split at hfits <;> omega

end Sys2Proof.Machine
end

section
/-! Every step keeps the invariant (R44, R226, R238): each part of a cycle does, and a cycle is made of them. -/

namespace Sys2Proof.Machine

/-! ### The parts of a cycle -/

theorem inv_consumeInput {s : State} (h : Inv s) : Inv (consumeInput s) := ⟨h.memory, h.fault, h.await⟩

/-- Step 1 clears DIRTY, so that a core not halted meets the invariant's clauses on it. -/
theorem inv_beginCycle {s : State} (h : Inv s) (hf : s.fault = none) : Inv (beginCycle s) :=
  ⟨h.memory, fun _ hr => (nomatch hf.symm.trans hr), fun _ => rfl⟩

/-- Step 4 writes nothing that the invariant reads. -/
theorem inv_timerStep {s : State} (h : Inv s) : Inv (timerStep s) := by
  unfold timerStep
  split
  · exact ⟨h.memory, h.fault, h.await⟩
  · exact h

theorem inv_endCycle {s : State} (h : Inv s) : Inv (endCycle s) := by
  unfold endCycle
  split
  · exact h
  · exact inv_timerStep h

theorem inv_awaitStep {s : State} {d : Reg} (h : Inv s) (hf : s.fault = none) : Inv (awaitStep d s) := by
  unfold awaitStep
  split
  · exact inv_timerStep ⟨h.memory, fun _ hr => (nomatch hf.symm.trans hr), fun hne => absurd rfl hne⟩
  · exact h

/-- A fault taken by a running core that has drawn nothing in this cycle. -/
theorem inv_takeFault {s : State} {e : Raise} {w : Option Opcode} (h : Inv s) (ha : s.await = .running)
    (hd : s.dirty = false) (hr : FaultRecord.consistent ⟨e.cause, s.pc, w, e.info⟩) : Inv (takeFault e w s) := by
  refine ⟨h.memory, fun r hr' => ?_, h.await⟩
  cases hr'
  exact ⟨hr, rfl, ha, hd⟩

/-! ### The instruction -/

/-- A condition that an instruction raises gives a consistent record: it was fetched below 0xFFF, and each value lies
within the bounds of R238. -/
theorem consistent_of_faultCondition {i : Instr} {s : State} {c : Cause} {info : Option Nat} (w : Opcode)
    (hpc : s.pc.toNat + 1 ≤ 0xFFF) (h : FaultCondition i s c info) :
    FaultRecord.consistent ⟨c, s.pc, some w, info⟩ := by
  have hia : s.pc ≠ 0xFFF#12 := fun he => absurd (he ▸ hpc) (by decide)
  refine ⟨⟨nofun, fun he => absurd he hia⟩, nofun, ?_⟩
  cases c with
  | decodeFailure => exact h.elim
  | stackOverflow => exact h.2.2
  | stackUnderflow => exact h.2.2
  | addressOutOfRange => exact h.2
  | pcOutOfRange =>
    obtain ⟨habove, hinfo⟩ := (faultCondition_pcOutOfRange_iff i s info).1 h
    exact ⟨_, hinfo, habove, checkedAddr_le i s⟩
  | keyIndexOutOfRange =>
    obtain ⟨x, -, hkey, hinfo⟩ := h
    exact ⟨_, hinfo, hkey, Nat.le_of_lt_succ (s.reg x).isLt⟩

/-- The range check passes, so the stores stay inside the memory array and keep its canonical form. -/
theorem effect_memWf {i : Instr} {s : State} (h : s.MemWf) (he : earlyFault i s = none) : (effect i s).MemWf := by
  cases i with
  | ldB x =>
    have hspan := (earlyFault_eq_none_iff_span_fits rfl).1 he
    exact storeBcd_memWf _ _ h (by simp only [checkedBytes, Config.memSize] at *; omega)
  | ldMemVx x =>
    have hspan := (earlyFault_eq_none_iff_span_fits rfl).1 he
    exact storeRegs_memWf _ _ h (by simp only [checkedBytes, Config.memSize] at *; omega)
  | ldVxMem x => rw [effect, loadRegs_only_v]; exact h
  | call nnn => simp only [effect]; split <;> exact h
  | _ => exact h

/-- Only Fx0A writes the await state. -/
theorem effect_await {i : Instr} (s : State) (hi : ∀ x, i ≠ .ldVxK x) : (effect i s).await = s.await :=
  (effect_frame i s).2 .await (by cases i <;> simp_all [destParts])

/-- An instruction that enters the wait draws nothing. -/
theorem effect_dirty_of_awaiting {i : Instr} {s : State} (ha : s.await = .running) (hd : s.dirty = false)
    (hne : (effect i s).await ≠ .running) : (effect i s).dirty = false := by
  by_cases hi : ∃ x, i = .ldVxK x
  · obtain ⟨x, rfl⟩ := hi
    exact hd
  · exact absurd ((effect_await s (not_exists.1 hi)).trans ha) hne

theorem inv_exec {i : Instr} {s t : State} (h : Inv s) (hf : s.fault = none) (ha : s.await = .running)
    (hd : s.dirty = false) (hpc : s.pc.toNat + 1 ≤ 0xFFF) (hexec : exec i s = .next t) : Inv t := by
  rcases exec_cases i s with ⟨e, hnext, hcond, -⟩ | ⟨hnext, he, -⟩ <;> cases hnext.symm.trans hexec
  · exact inv_takeFault h ha hd (consistent_of_faultCondition _ hpc hcond)
  · exact ⟨effect_memWf h.memory he, fun _ hr => (nomatch ((effect_fault i s).trans hf).symm.trans hr),
      effect_dirty_of_awaiting ha hd⟩

/-! ### The step -/

theorem exec_next (i : Instr) (s : State) : ∃ t, exec i s = .next t := by
  obtain ⟨r, hr⟩ := exec_complete i s
  exact ⟨_, hr⟩

/-- A running core whose word decodes runs that instruction in the state after step 1, and ends the cycle. -/
theorem step_of_decoded {s : State} {i : Instr} (hf : s.fault = none) (ha : s.await = .running)
    (hpc : s.pc.toNat + 1 ≤ 0xFFF) (hd : decode (fetchWord s) = .ok i) :
    step s = finishCycle (exec i (beginCycle s)) := by
  rw [step_of_running hf ha, fetchInstr_of_ok (beginCycle s) i hpc hd]

theorem step_of_fetch_top {s : State} (hf : s.fault = none) (ha : s.await = .running) (hpc : s.pc.toNat + 1 > 0xFFF) :
    step s = .next (takeFault (raiseAddress 0x1000) none (beginCycle s)) := by
  rw [step_of_running hf ha, fetchInstr_of_top (beginCycle s) hpc]

/-- What a cycle of a running core is: the fetch at 0xFFF faults, a word that decodes to nothing faults, and any other
word's instruction runs and the cycle ends. -/
theorem step_running_cases {s : State} (hf : s.fault = none) (ha : s.await = .running) :
    (s.pc.toNat + 1 > 0xFFF ∧ step s = .next (takeFault (raiseAddress 0x1000) none (beginCycle s))) ∨
    (s.pc.toNat + 1 ≤ 0xFFF ∧ (∃ e, decode (fetchWord s) = .error e) ∧
      step s = .next (takeFault raiseDecodeFailure (some (fetchWord s)) (beginCycle s))) ∨
    (s.pc.toNat + 1 ≤ 0xFFF ∧ ∃ i t, decode (fetchWord s) = .ok i ∧ exec i (beginCycle s) = .next t ∧
      step s = .next (endCycle t)) := by
  by_cases hpc : s.pc.toNat + 1 > 0xFFF
  · exact .inl ⟨hpc, step_of_fetch_top hf ha hpc⟩
  · have hpc' : s.pc.toNat + 1 ≤ 0xFFF := by omega
    cases hd : decode (fetchWord s) with
    | error e => exact .inr (.inl ⟨hpc', ⟨e, rfl⟩, step_of_undecoded hf ha hpc' hd⟩)
    | ok i =>
      obtain ⟨t, ht⟩ := exec_next i (beginCycle s)
      refine .inr (.inr ⟨hpc', i, t, rfl, ht, ?_⟩)
      rw [step_of_decoded hf ha hpc' hd, ht, finishCycle]

/-- Settles O19: a halted core's cycle writes nothing that the invariant reads; every other cycle is made of parts that
keep the invariant. -/
theorem stepKeepsInvariant : Obligations.StepKeepsInvariant := by
  intro s t h hstep
  by_cases hf : s.fault = none
  · have h0 := inv_beginCycle h hf
    cases ha : s.await with
    | awaitingKey d =>
      cases (step_of_awaiting hf ha).symm.trans hstep
      exact inv_awaitStep h0 hf
    | running =>
      rcases step_running_cases hf ha with ⟨hpc, hnext⟩ | ⟨hpc, -, hnext⟩ | ⟨hpc, i, u, -, hexec, hnext⟩ <;>
        cases hnext.symm.trans hstep
      · have htop : s.pc = 0xFFF#12 := BitVec.eq_of_toNat_eq (show s.pc.toNat = 0xFFF by have := addr_le s.pc; omega)
        exact inv_takeFault h0 ha rfl ⟨⟨fun _ => htop, fun _ => rfl⟩, fun _ => rfl, rfl⟩
      · have hia : s.pc ≠ 0xFFF#12 := fun he => absurd (he ▸ hpc) (by decide)
        exact inv_takeFault h0 ha rfl ⟨⟨nofun, fun he => absurd he hia⟩, nofun, rfl⟩
      · exact inv_endCycle (inv_exec h0 hf ha rfl hpc hexec)
  · cases (step_of_halted hf).symm.trans hstep
    exact inv_consumeInput h

/-- Settles O20: after reset the memory lists nothing, and the core is neither halted nor awaiting a key. -/
theorem resetHasInvariant : Obligations.ResetHasInvariant :=
  ⟨reset_wf, nofun, fun hne => absurd rfl hne⟩

end Sys2Proof.Machine
end

section
/-! What a cycle does in each kind of state (R100 to R112, R260): an activation's step 1 and step 4, the halt, the wait
for a key, the report of the screen and the self-loop. -/

namespace Sys2Proof.Machine

/-! ### The activation -/

/-- Settles O18: an activation consumes the inputs of a halted core, scans the keypad, takes a fault or runs an
instruction, and each of these gives a state. -/
theorem everyActivationCompletes : Obligations.EveryActivationCompletes := by
  intro s
  by_cases hf : s.fault = none
  · cases ha : s.await with
    | awaitingKey d => exact ⟨_, step_of_awaiting hf ha⟩
    | running =>
      rcases step_running_cases hf ha with ⟨-, h⟩ | ⟨-, -, h⟩ | ⟨-, _, _, -, -, h⟩ <;> exact ⟨_, h⟩
  · exact ⟨_, step_of_halted hf⟩

/-- Settles O7: the bytes at the pc are the word that the cycle fetches. -/
theorem stepRunsDecodedInstruction : Obligations.StepRunsDecodedInstruction :=
  fun _ _ hf ha hpc hd => step_of_decoded hf ha hpc hd

/-- Step 1 changes the inputs of the cycle, DIRTY and the latch alone. -/
theorem beginCycle_frame (s : State) : Frame [] [.keypad, .dirty, .tick, .inputs] s (beginCycle s) :=
  ⟨fun _ _ => rfl, beginCycle_parts s⟩

/-- Settles O8: step 1 takes the oldest entry of the script. -/
theorem cycleBeginsBySampling : Obligations.CycleBeginsBySampling := by
  intro s c rest hinputs
  have hc : currentInput s = c := by rw [currentInput, hinputs]
  have hrest : (beginCycle s).inputs = rest := by simp [beginCycle, hinputs]
  exact ⟨by simp [beginCycle, hc], rfl, by simp [beginCycle, hc], by simp [beginCycle, hc], hrest, beginCycle_frame s⟩

/-- A pending tick takes one from each timer, clamped at 0; with none pending both stand still. -/
theorem timerStep_counts (t : State) :
    (timerStep t).dt.toNat = (if t.tickPending then t.dt.toNat - 1 else t.dt.toNat) ∧
    (timerStep t).st.toNat = (if t.tickPending then t.st.toNat - 1 else t.st.toNat) := by
  rw [timerStep_dt, timerStep_st]
  split <;> exact ⟨rfl, rfl⟩

/-- Settles O9: the instruction did not fault, so that the cycle ends with step 4. -/
theorem timersCountDownOncePerTick : Obligations.TimersCountDownOncePerTick := by
  intro s t i hf ha hpc hd hexec htf
  obtain ⟨hdt, hst⟩ := timerStep_counts t
  refine ⟨timerStep t, ?_, timerStep_tickPending t, hdt, hst, timerStep_frame t⟩
  rw [step_of_decoded hf ha hpc hd, hexec, finishCycle, endCycle_of_no_fault t htf]

/-- A taken fault changes nothing but the record. -/
theorem takeFault_frame (e : Raise) (w : Option Opcode) (s : State) : Frame [] [.fault] s (takeFault e w s) := by
  refine ⟨fun r _ => takeFault_reg s e w r, fun p hp => ?_⟩
  cases p with
  | fault => exact absurd List.mem_cons_self hp
  | _ => simp [Unchanged]

/-- Settles O10: the fetch needs the address 0x1000, and its fault is taken in the state after step 1. -/
theorem fetchAtTopFaults : Obligations.FetchAtTopFaults := by
  intro s hf ha hpc
  refine ⟨_, step_of_fetch_top hf ha (by rw [hpc]; decide), ?_, takeFault_frame _ _ _⟩
  rw [← hpc]
  rfl

/-- Settles O12: the decode failure is taken in the state after step 1, with the fetched word. -/
theorem decodeFailureIsPrecise : Obligations.DecodeFailureIsPrecise := by
  intro s hf ha hpc hnone
  cases hd : decode (fetchWord s) with
  | ok i => exact absurd hd (hnone i)
  | error e => exact ⟨_, step_of_undecoded hf ha hpc hd, takeFault_frame _ _ _, rfl⟩

/-! ### The halt -/

/-- A halted core's cycle uses up the activation's inputs and changes nothing else. -/
theorem consumeInput_frame (s : State) : Frame [] [.inputs] s (consumeInput s) := by
  refine ⟨fun r _ => consumeInput_reg s r, fun p hp => ?_⟩
  cases p with
  | inputs => exact absurd List.mem_cons_self hp
  | _ => simp [Unchanged]

/-- Settles O13: the record is still there after the cycle, and it hides the other outputs. -/
theorem haltedCycleChangesNothing : Obligations.HaltedCycleChangesNothing := by
  intro s r hr
  refine ⟨_, step_of_halted (by simp [hr]), consumeInput_frame s, ?_⟩
  rw [cycleResult, consumeInput_fault, hr]

theorem run_succ_of_step {k : Nat} {s t : State} (h : step s = .next t) : core.run (k + 1) s = core.run k t := by
  have hcore : core.step s = .next t := h
  simp only [Host.Core.run, hcore]

/-- Settles O14, by induction on the number of cycles: each leaves a halted core again. -/
theorem haltLastsUntilReset : Obligations.HaltLastsUntilReset := by
  intro k
  induction k with
  | zero => exact fun s _ => ⟨s, rfl, Frame.refl _ _ s⟩
  | succ k ih =>
    intro s hf
    obtain ⟨t, hrun, hframe⟩ := ih (consumeInput s) hf
    refine ⟨t, (run_succ_of_step (step_of_halted hf)).trans hrun, ?_⟩
    exact ((consumeInput_frame s).trans hframe).mono (by simp) (by simp)

/-! ### The wait for a key -/

theorem awaitStep_of_key {d : Reg} {s : State} {k : Nat} (h : lowestKey s = some k) :
    awaitStep d s = timerStep ((s.setReg d (BitVec.ofNat 8 k)).setAwait .running) := by
  rw [awaitStep, h]

theorem awaitStep_of_no_key {d : Reg} {s : State} (h : lowestKey s = none) : awaitStep d s = s := by
  rw [awaitStep, h]

/-- Settles O15: the scan finds the least pressed key; its register and the await state are written, and step 4
follows. -/
theorem awaitedKeyIsWritten : Obligations.AwaitedKeyIsWritten := by
  intro s d k hk hf ha hdown hleast
  have hlow : lowestKey (beginCycle s) = some k :=
    lowestKey_eq_some _ k hk ((keyDown_of_lt _ k hk).trans hdown)
      fun j hj => (keyDown_of_lt _ j (by omega)).trans (hleast j hj)
  have hstep : step s = .next (timerStep (((beginCycle s).setReg d (BitVec.ofNat 8 k)).setAwait .running)) := by
    rw [step_of_awaiting hf ha, awaitStep_of_key hlow]
  have h4 := timerStep_frame (((beginCycle s).setReg d (BitVec.ofNat 8 k)).setAwait .running)
  obtain ⟨hdt, hst⟩ := timerStep_counts (((beginCycle s).setReg d (BitVec.ofNat 8 k)).setAwait .running)
  refine ⟨_, hstep, ?_, h4.2 .await (by decide), h4.2 .keypad (by decide), h4.2 .dirty (by decide),
    timerStep_tickPending _, hdt, hst, ?_⟩
  · rw [h4.1 d List.not_mem_nil, setAwait_reg, setReg_reg_same, BitVec.toNat_ofNat]
    omega
  · exact ((((beginCycle_frame s).trans (setReg_frame _ _ _)).trans (setAwait_frame _ _)).trans h4).mono
      (by simp) (by simp)

/-- Settles O16: the scan finds no key, and the cycle ends after step 1. -/
theorem awaitWithoutKeyHoldsTimers : Obligations.AwaitWithoutKeyHoldsTimers := by
  intro s d hf ha hup
  have hlow : lowestKey (beginCycle s) = none :=
    lowestKey_eq_none _ fun k hk => (keyDown_of_lt _ k hk).trans (hup k hk)
  refine ⟨beginCycle s, ?_, ha, rfl, beginCycle_frame s, ?_⟩
  · rw [step_of_awaiting hf ha, awaitStep_of_no_key hlow]
  · rw [cycleResult, show (beginCycle s).fault = none from hf]
    rfl


/-! ### What the cycle reports of the screen -/

theorem vramDirty_iff (t : State) : (cycleResult t).vramDirty = true ↔ t.fault = none ∧ t.dirty = true := by
  unfold cycleResult
  cases t.fault <;> simp

theorem vramDirty_iff_of_fault {t : State} {p : Prop} (hne : t.fault ≠ none) (hp : p → t.fault = none) :
    (cycleResult t).vramDirty = true ↔ p :=
  ⟨fun h => absurd ((vramDirty_iff t).1 h).1 hne, fun h => absurd (hp h) hne⟩

/-- The rest of the cycle leaves the record. -/
theorem endCycle_fault (t : State) : (endCycle t).fault = t.fault := by
  by_cases hf : t.fault = none
  · rw [endCycle_of_no_fault t hf]
    exact (timerStep_frame t).2 .fault (by decide)
  · rw [endCycle_of_fault t hf]

theorem awaitStep_dirty (d : Reg) (s : State) : (awaitStep d s).dirty = s.dirty := by
  unfold awaitStep
  split
  · exact (timerStep_frame _).2 .dirty (by decide)
  · rfl

/-- Of the instructions 00E0 and Dxyn alone set DIRTY. -/
theorem effect_dirty_iff {s : State} (i : Instr) (hd : s.dirty = false) :
    (effect i s).dirty = true ↔ i = .cls ∨ ∃ x y n, i = .drw x y n := by
  by_cases hi : i = .cls ∨ ∃ x y n, i = .drw x y n
  · obtain rfl | ⟨x, y, n, rfl⟩ := hi <;> simp [effect]
  · have hsame : (effect i s).dirty = s.dirty :=
      (effect_frame i s).2 .dirty (by cases i <;> simp_all [destParts])
    simp [hsame, hd, hi]

/-- Settles O17: a halted core and a fault report nothing, a cycle of the wait draws nothing, and an instruction that
completed has set DIRTY exactly if it is 00E0 or Dxyn, which step 4 leaves. -/
theorem vramDirtyExactlyAfterClearOrDraw : Obligations.VramDirtyExactlyAfterClearOrDraw := by
  intro s
  by_cases hf : s.fault = none
  swap
  · exact ⟨_, step_of_halted hf, vramDirty_iff_of_fault hf fun hrep => hrep.1⟩
  cases ha : s.await with
  | awaitingKey d =>
    refine ⟨_, step_of_awaiting hf ha, fun hrep => ?_, fun hrep => nomatch hrep.2.1⟩
    rw [vramDirty_iff, awaitStep_dirty] at hrep
    exact nomatch hrep.2
  | running =>
    rcases step_running_cases hf ha with ⟨-, h⟩ | ⟨-, -, h⟩ | ⟨hpc, i, t, hd, hexec, h⟩
    · exact ⟨_, h, vramDirty_iff_of_fault nofun fun hrep => hrep.2.2.1⟩
    · exact ⟨_, h, vramDirty_iff_of_fault nofun fun hrep => hrep.2.2.1⟩
    · refine ⟨_, h, ?_⟩
      rcases exec_cases i (beginCycle s) with ⟨e, hnext, -, -⟩ | ⟨hnext, -, -⟩ <;> cases hnext.symm.trans hexec
      · exact vramDirty_iff_of_fault nofun fun hrep => hrep.2.2.1
      · have htf : (effect i (beginCycle s)).fault = none := (effect_fault i (beginCycle s)).trans hf
        rw [cycleResult_endCycle_vramDirty (by rwa [withPc_fault]), withPc_dirty, effect_dirty_iff i rfl, hd]
        simp [hf, hpc, endCycle_fault, htf]

/-! ### The self-loop -/

theorem selfLoop_iff (s : State) : selfLoop s = true ↔
    s.await = .running ∧ s.fault = none ∧ s.pc.toNat + 1 ≤ 0xFFF ∧ decode (fetchWord s) = .ok (.jp s.pc) := by
  simp [selfLoop, halted, and_assoc]

/-- Where neither the pc nor the memory changed, the next fetch reads the same word. -/
theorem Frame.fetchWord_eq {ws : List Reg} {ps : List Part} {s t : State} (h : Frame ws ps s t) (hpc : .pc ∉ ps)
    (hm : .memory ∉ ps) : fetchWord t = fetchWord s := by
  have hpc' : t.pc = s.pc := h.2 .pc hpc
  have hm' : ∀ a, t.readByte a = s.readByte a := h.2 .memory hm
  rw [fetchWord, fetchWord, hpc', hm', hm']

/-- Settles O26: the jump sets the pc to where it stands, so that the cycle is its step 1 and its step 4. -/
theorem selfLoopStays : Obligations.SelfLoopStays := by
  intro s h
  obtain ⟨ha, hf, hpc, hd⟩ := (selfLoop_iff s).1 h
  have hjump : exec (.jp s.pc) (beginCycle s) = .next (beginCycle s) := exec_jp s.pc (beginCycle s)
  have hstep : step s = .next (timerStep (beginCycle s)) := by
    rw [step_of_decoded hf ha hpc hd, hjump, finishCycle, endCycle_of_no_fault (beginCycle s) hf]
  have hframe := (beginCycle_frame s).trans (timerStep_frame (beginCycle s))
  have hpc' : (timerStep (beginCycle s)).pc = s.pc := hframe.2 .pc (by decide)
  have ha' : (timerStep (beginCycle s)).await = s.await := hframe.2 .await (by decide)
  have hf' : (timerStep (beginCycle s)).fault = s.fault := hframe.2 .fault (by decide)
  refine ⟨_, hstep, (selfLoop_iff _).2 ⟨ha'.trans ha, hf'.trans hf, ?_, ?_⟩, hframe.mono (by simp) (by simp)⟩
  · rw [hpc']; exact hpc
  · rw [hframe.fetchWord_eq (by decide) (by decide), hpc', hd]

end Sys2Proof.Machine
end

section
/-! Memory as data and as the host sees it: the canonical form is canonical, what reset gives, and the load of a ROM
(R46, R250 to R252). -/

namespace Sys2Proof.Machine

/-- Below its lowest address a canonical list has no entry. -/
theorem Memory.read_of_lt {font : Font} {m : Memory} {lo a : Nat} (h : Memory.wfFrom font lo m = true) (ha : a < lo) :
    Memory.read font m a = Memory.unlisted font a := by
  induction m generalizing lo with
  | nil => rfl
  | cons c m ih =>
    obtain ⟨k, b⟩ := c
    simp only [Memory.wfFrom, Bool.and_eq_true, decide_eq_true_eq] at h
    obtain ⟨⟨⟨hlo, -⟩, -⟩, htail⟩ := h
    rw [Memory.read, if_neg (by omega)]
    exact ih htail (by omega)

section
variable {font : Font} {m m' : Memory} {lo k : Nat} {b : Byte}

theorem Memory.wfFrom_cons (h : Memory.wfFrom font lo ((k, b) :: m) = true) :
    b ≠ Memory.unlisted font k ∧ Memory.wfFrom font (k + 1) m = true ∧ Memory.wfFrom font k ((k, b) :: m) = true := by
  simp only [Memory.wfFrom, Bool.and_eq_true, decide_eq_true_eq] at h ⊢
  obtain ⟨⟨⟨-, hk⟩, hb⟩, htail⟩ := h
  exact ⟨hb, htail, ⟨⟨Nat.le_refl k, hk⟩, hb⟩, htail⟩

theorem Memory.read_cons (font : Font) (m : Memory) (k a : Nat) (b : Byte) :
    Memory.read font ((k, b) :: m) a = if a = k then b else Memory.read font m a := rfl

/-- An entry differs from its reset content, so that a list which reads alike there does not begin above it. -/
theorem Memory.le_of_read_eq {lo' : Nat} (h : Memory.wfFrom font lo ((k, b) :: m) = true)
    (h' : Memory.wfFrom font lo' m' = true) (heq : Memory.read font ((k, b) :: m) k = Memory.read font m' k) :
    lo' ≤ k := by
  by_contra hlt
  rw [Memory.read_cons, if_pos rfl, Memory.read_of_lt h' (by omega)] at heq
  exact (Memory.wfFrom_cons h).1 heq

end

theorem Memory.eq_of_read_eq {font : Font} {m m' : Memory} {lo lo' : Nat} (h : Memory.wfFrom font lo m = true)
    (h' : Memory.wfFrom font lo' m' = true) (heq : ∀ a, Memory.read font m a = Memory.read font m' a) : m = m' := by
  induction m generalizing m' lo lo' with
  | nil =>
    cases m' with
    | nil => rfl
    | cons c _ => exact absurd (Memory.le_of_read_eq (lo' := c.1 + 1) h' rfl (heq c.1).symm) (by omega)
  | cons c m ih =>
    obtain ⟨k, b⟩ := c
    cases m' with
    | nil => exact absurd (Memory.le_of_read_eq (lo' := k + 1) h rfl (heq k)) (by omega)
    | cons c' m' =>
      obtain ⟨k', b'⟩ := c'
      obtain ⟨-, htail, hself⟩ := Memory.wfFrom_cons h
      obtain ⟨-, htail', hself'⟩ := Memory.wfFrom_cons h'
      obtain rfl : k = k' := Nat.le_antisymm (Memory.le_of_read_eq h' hself (heq k').symm)
        (Memory.le_of_read_eq h hself' (heq k))
      have hb : b = b' := by simpa [Memory.read_cons] using heq k
      have hm : m = m' := ih htail htail' fun a => by
        by_cases ha : a = k
        · rw [ha, Memory.read_of_lt htail (Nat.lt_succ_self k), Memory.read_of_lt htail' (Nat.lt_succ_self k)]
        · simpa [Memory.read_cons, ha] using heq a
      rw [hb, hm]

/-- Settles O21, by induction along both lists: each entry stands at the same address and holds the same byte. -/
theorem equalReadsMakeEqualMemories : Obligations.EqualReadsMakeEqualMemories :=
  fun _ _ _ h h' heq => Memory.eq_of_read_eq h h' heq

theorem reset_readByte (a : Nat) : State.reset.readByte a = Memory.unlisted State.reset.font a := rfl

/-- Settles O27: the reset state lists its elements, and a memory that lists nothing reads as the font and 0. -/
theorem resetValues : Obligations.ResetValues := by
  refine ⟨fun r => ?_, rfl, rfl, rfl, rfl, rfl, rfl, rfl, rfl, rfl, fun j h => ⟨?_, ?_⟩, fun row col => ?_,
    fun a h => ?_, fun a h => ?_, fun s => ⟨rfl, rfl⟩⟩
  · simp [State.reg, State.reset]
  · simp [State.reset]
  · simp [State.reset]
  · exact pixel_clearScreen row col
  · rw [reset_readByte, Memory.unlisted, dif_pos h]
  · rw [reset_readByte, Memory.unlisted, dif_neg (by omega)]

/-- Settles O28: a ROM that fits is stored byte by byte from 0x200 on; the length check rejects any other. -/
theorem loadRomCopiesVerbatim : Obligations.LoadRomCopiesVerbatim := by
  intro bytes s
  refine ⟨fun hfits => ⟨storeBytes 0x200 bytes s, ?_, fun k hk => ?_, fun a ha => ?_, ?_⟩, fun hlong => ?_⟩
  · exact if_pos (decide_eq_true hfits)
  · rw [storeBytes_readByte, dif_pos (by omega)]
    simp
  · rw [storeBytes_readByte, dif_neg (by omega)]
  · rw [storeBytes_only_mem]
    exact mem_frame s _
  · exact if_neg (by simpa [wellFormedRom] using hlong)

end Sys2Proof.Machine
end

section
/-! Control transfer (R120 to R127, R200, R201): the instructions whose one write is the pc, and the stack. -/

namespace Sys2Proof.Machine

/-! ### The pc alone -/

/-- An instruction with no other write goes to the address it checks, or faults when that does not fit (R12, R225). -/
theorem exec_moves_or_faults {i : Instr} {s : State} {a : Nat} (he : earlyFault i s = none) (heff : effect i s = s)
    (hn : nextPc i s = BitVec.ofNat 12 (checkedAddr i s)) (ha : checkedAddr i s = a) :
    (a ≤ 0xFFF → ∃ t, exec i s = .next t ∧ t.pc.toNat = a ∧ Frame [] [.pc] s t) ∧
    (a > 0xFFF → ∃ t, exec i s = .next t ∧ Faulted i .pcOutOfRange (some a) s t) := by
  subst ha
  refine ⟨fun hfits => ⟨_, exec_of_fits he hfits, ?_, ?_⟩, fun habove => exec_faulted_of_pc_above he habove⟩
  · rw [hn, withPc_pc, ofNat12_toNat _ hfits]
  · rw [heff]
    exact withPc_frame s _

/-- Settles O31: the sum is what the rule checks, and the pc is its one write. -/
theorem jumpOffsetAddsV0 : Obligations.JumpOffsetAddsV0 :=
  fun nnn _ => ⟨decode_encode (.jpV0 nnn), exec_moves_or_faults rfl rfl rfl rfl⟩

/-- The address a skip checks, with its condition as a proposition. -/
theorem checkedAddr_of_skip {i : Instr} {s : State} (p : Prop) [Decidable p] (hc : checkedAddr i s = successor i s)
    (ht : skipTaken i s = true ↔ p) : checkedAddr i s = s.pc.toNat + if p then 4 else 2 := by
  simp only [hc, successor, ht]

/-- Settles O35: each skip's condition is the one its rule compares by. -/
theorem skipsOnByte : Obligations.SkipsOnByte := by
  intro x kk s
  obtain ⟨eqFits, eqAbove⟩ := exec_moves_or_faults (i := .seImm x kk) rfl rfl rfl
    (checkedAddr_of_skip (s.reg x = kk) rfl decide_eq_true_iff)
  obtain ⟨neFits, neAbove⟩ := exec_moves_or_faults (i := .sneImm x kk) rfl rfl rfl
    (checkedAddr_of_skip (s.reg x ≠ kk) rfl decide_eq_true_iff)
  exact ⟨decode_encode (.seImm x kk), decode_encode (.sneImm x kk), eqFits, eqAbove, neFits, neAbove⟩

/-- Settles O36: the same of a second register, which may be the first. -/
theorem skipsOnRegister : Obligations.SkipsOnRegister := by
  intro x y s
  obtain ⟨eqFits, eqAbove⟩ := exec_moves_or_faults (i := .seReg x y) rfl rfl rfl
    (checkedAddr_of_skip (s.reg x = s.reg y) rfl decide_eq_true_iff)
  obtain ⟨neFits, neAbove⟩ := exec_moves_or_faults (i := .sneReg x y) rfl rfl rfl
    (checkedAddr_of_skip (s.reg x ≠ s.reg y) rfl decide_eq_true_iff)
  exact ⟨decode_encode (.seReg x y), decode_encode (.sneReg x y), eqFits, eqAbove, neFits, neAbove⟩

/-- Settles O52: with an index that a key has, the skips test that key; any other index faults before the pc's check. -/
theorem skipsOnKey : Obligations.SkipsOnKey := by
  intro x s
  refine ⟨decode_encode (.skp x), decode_encode (.sknp x), fun hkey => ?key, fun hkey => ⟨?_, ?_⟩⟩
  case key =>
    have hcheck : ¬ (s.reg x).toNat > 15 := by omega
    have hdown := keyDown_of_lt s _ hkey
    obtain ⟨downFits, downAbove⟩ := exec_moves_or_faults (i := .skp x) (if_neg hcheck) rfl rfl
      (checkedAddr_of_skip (s.keypad[(s.reg x).toNat] = true) rfl (by simp only [skipTaken, hdown]))
    obtain ⟨upFits, upAbove⟩ := exec_moves_or_faults (i := .sknp x) (if_neg hcheck) rfl rfl
      (checkedAddr_of_skip (s.keypad[(s.reg x).toNat] = false) rfl (by simp only [skipTaken, hdown, Bool.not_eq_true']))
    exact ⟨downFits, downAbove, upFits, upAbove⟩
  · exact exec_faulted_of_earlyFault (i := .skp x) (if_pos hkey)
  · exact exec_faulted_of_earlyFault (i := .sknp x) (if_pos hkey)

/-! ### The stack -/

theorem exec_ret_of_pos {s : State} (h : 0 < s.sp.val) :
    exec .ret s = .next ((dropReturn s).withPc (topReturn s h)) := by
  have hchecked : checkedAddr .ret s = (topReturn s h).toNat := dif_pos h
  have hnext : nextPc .ret s = topReturn s h := by
    rw [nextPc.eq_def]
    simp only [hchecked, BitVec.ofNat_toNat, BitVec.setWidth_eq]
  rw [exec_of_fits (i := .ret) (if_pos h) (by rw [hchecked]; exact addr_le _), hnext]
  rfl

theorem exec_call_of_fits (nnn : Addr) {s : State} (hsp : s.sp.val < 16) (hpc : s.pc.toNat + 2 ≤ 0xFFF) :
    exec (.call nnn) s = .next ((pushReturn (BitVec.ofNat 12 s.pcSeq) s hsp).withPc nnn) := by
  rw [exec_of_fits (i := .call nnn) (if_pos hsp) hpc,
    show effect (.call nnn) s = pushReturn (BitVec.ofNat 12 s.pcSeq) s hsp from dif_pos hsp]
  rfl

/-- Settles O32: the top entry becomes the pc and the stack pointer drops; with an empty stack the check fails. -/
theorem returnPopsTopEntry : Obligations.ReturnPopsTopEntry := by
  intro s
  refine ⟨decode_encode .ret, fun h => ⟨_, exec_ret_of_pos h, rfl, rfl, rfl, ?_⟩, fun h => ?_⟩
  · exact ((dropReturn_frame s).trans (withPc_frame _ _)).mono (by simp) (by simp)
  · exact exec_faulted_of_earlyFault (i := .ret) (if_neg (by simp [h]))

/-- Settles O33: the return address is written at SP, which then counts it; the two checks come in their order. -/
theorem callPushesReturnAddress : Obligations.CallPushesReturnAddress := by
  intro nnn s
  refine ⟨decode_encode (.call nnn), fun hsp hpc => ⟨_, exec_call_of_fits nnn hsp hpc, rfl, rfl, fun j hj => ?_, ?_⟩,
    fun hsp => ?_, fun hsp hpc => ?_⟩
  · rw [withPc_stack, pushReturn_stack, Vector.getElem_set]
    by_cases h : s.sp.val = j
    · rw [if_pos h, if_pos h.symm]
      exact ofNat12_toNat s.pcSeq hpc
    · rw [if_neg h, if_neg (Ne.symm h)]
  · exact ((pushReturn_frame s _ hsp).trans (withPc_frame _ _)).mono (by simp) (by simp)
  · exact exec_faulted_of_earlyFault (i := .call nnn) (if_neg (by simp [hsp]))
  · exact exec_faulted_of_pc_above (i := .call nnn) (if_pos hsp) hpc

/-- Settles O34: the entry that the return pops is the one that the call pushed, and the entries below it are kept. -/
theorem returnUndoesCall : Obligations.ReturnUndoesCall := by
  intro nnn s hsp hpc
  have hpos : 0 < ((pushReturn (BitVec.ofNat 12 s.pcSeq) s hsp).withPc nnn).sp.val := Nat.succ_pos _
  refine ⟨_, _, exec_call_of_fits nnn hsp hpc, exec_ret_of_pos hpos, ?_, rfl, fun j hj => ?_, ?_⟩
  · have htop : topReturn _ hpos = BitVec.ofNat 12 s.pcSeq := by simp [topReturn]
    rw [withPc_pc, htop]
    exact ofNat12_toNat s.pcSeq hpc
  · simp [Vector.getElem_set_ne, Nat.ne_of_gt hj]
  · exact ((((pushReturn_frame s _ hsp).trans (withPc_frame _ _)).trans (dropReturn_frame _)).trans
      (withPc_frame _ _)).mono (by simp) (by simp)

end Sys2Proof.Machine
end

section
/-! The instructions that end with `SetPC(pc_seq)`, as their writes are (R146 to R152, R172, R203): the ALU's flag
writers, the random byte, the index sum and the wait's entry. -/

namespace Sys2Proof.Machine

/-! ### The one way they end -/

/-- An instruction whose own check passes and which checks the sequential successor, where that exists: it has all its
writes, the pc is advanced, and the rest is as before. -/
theorem exec_advances {i : Instr} {s : State} (he : earlyFault i s = none) (hc : checkedAddr i s = s.pc.toNat + 2)
    (hn : nextPc i s = BitVec.ofNat 12 (checkedAddr i s)) (hpc : s.pc.toNat + 2 ≤ 0xFFF) :
    ∃ t, exec i s = .next t ∧ t.pc.toNat = s.pc.toNat + 2 ∧ Frame [] [.pc] (effect i s) t ∧
      Frame (destRegs i) (destParts i) s t := by
  refine ⟨_, exec_of_fits he (hc ▸ hpc), ?_, withPc_frame _ _, effect_withPc_frame i s _⟩
  rw [withPc_pc, hn, hc, ofNat12_toNat _ hpc]

/-- After a frame that names no register every register is as before. -/
theorem Frame.reg_eq {ps : List Part} {s t : State} (h : Frame [] ps s t) (r : Reg) : t.reg r = s.reg r :=
  h.1 r List.not_mem_nil

/-! ### The flags as numbers -/

theorem carry8_toNat (sum : Nat) : (carry8 sum).toNat = if sum > 255 then 1 else 0 := by
  simp only [carry8, flagByte_toNat, decide_eq_true_eq]

theorem carry12_toNat (sum : Nat) : (carry12 sum).toNat = if sum > 4095 then 1 else 0 := by
  simp only [carry12, flagByte_toNat, decide_eq_true_eq]

theorem noBorrow_toNat (a b : Byte) : (noBorrow a b).toNat = if a.toNat ≥ b.toNat then 1 else 0 := by
  simp only [noBorrow, flagByte_toNat, decide_eq_true_eq]

theorem shiftedOutRight_toNat (a : Byte) : (shiftedOutRight a).toNat = a.toNat % 2 := by
  simp only [shiftedOutRight, BitVec.toNat_ofNat]
  omega

theorem shiftedOutLeft_toNat (a : Byte) : (shiftedOutLeft a).toNat = a.toNat / 128 := by
  have := a.isLt
  simp only [shiftedOutLeft, BitVec.toNat_ofNat]
  omega

/-- The difference mod 256 that R147 and R149 name, computed without going below 0. -/
theorem ofNat8_sub_toNat (a b : Byte) :
    ((BitVec.ofNat 8 (a.toNat + 256 - b.toNat)).toNat : Int) = (a.toNat - b.toNat : Int) % 256 := by
  have := b.isLt
  rw [BitVec.toNat_ofNat]
  omega

/-! ### The result, then the flag -/

/-- Where the result is written before the flag, VF holds the flag, for x = F too (R13). -/
theorem setReg_setVf_reg (s : State) (x : Reg) (b f : Byte) :
    (x ≠ 0xF#4 → ((s.setReg x b).setVf f).reg x = b) ∧ ((s.setReg x b).setVf f).reg 0xF#4 = f := by
  rw [setVf_eq]
  exact ⟨fun hx => by rw [setReg_reg_other _ _ _ _ hx, setReg_reg_same], setReg_reg_same _ _ _⟩

/-- Settles O39: the exact sum is at most 510, and VF is written after Vx. -/
theorem addWritesCarry : Obligations.AddWritesCarry := by
  intro x y s hpc
  obtain ⟨t, hexec, htpc, hadv, hframe⟩ := exec_advances (i := .addReg x y) rfl rfl rfl hpc
  obtain ⟨hsum, hflag⟩ := setReg_setVf_reg s x (BitVec.ofNat 8 ((s.reg x).toNat + (s.reg y).toNat))
    (carry8 ((s.reg x).toNat + (s.reg y).toNat))
  refine ⟨decode_encode (.addReg x y), t, hexec, fun hx => ?_, ?_, htpc, hframe⟩
  · rw [hadv.reg_eq, effect, hsum hx, BitVec.toNat_ofNat]
  · rw [hadv.reg_eq, effect, hflag, carry8_toNat]

/-- Settles O40: both differences are taken mod 256, and VF is written after Vx, from the old values. -/
theorem subtractsWriteNoBorrow : Obligations.SubtractsWriteNoBorrow := by
  intro x y s hpc
  refine ⟨decode_encode (.subReg x y), decode_encode (.subnReg x y), ?sub, ?subn⟩
  case sub =>
    obtain ⟨t, hexec, htpc, hadv, hframe⟩ := exec_advances (i := .subReg x y) rfl rfl rfl hpc
    obtain ⟨hdiff, hflag⟩ := setReg_setVf_reg s x (BitVec.ofNat 8 ((s.reg x).toNat + 256 - (s.reg y).toNat))
      (noBorrow (s.reg x) (s.reg y))
    refine ⟨t, hexec, fun hx => ?_, ?_, htpc, hframe⟩
    · rw [hadv.reg_eq, effect, hdiff hx, ofNat8_sub_toNat]
    · rw [hadv.reg_eq, effect, hflag, noBorrow_toNat]
  case subn =>
    obtain ⟨t, hexec, htpc, hadv, hframe⟩ := exec_advances (i := .subnReg x y) rfl rfl rfl hpc
    obtain ⟨hdiff, hflag⟩ := setReg_setVf_reg s x (BitVec.ofNat 8 ((s.reg y).toNat + 256 - (s.reg x).toNat))
      (noBorrow (s.reg y) (s.reg x))
    refine ⟨t, hexec, fun hx => ?_, ?_, htpc, hframe⟩
    · rw [hadv.reg_eq, effect, hdiff hx, ofNat8_sub_toNat]
    · rw [hadv.reg_eq, effect, hflag, noBorrow_toNat]

/-! ### The flag, then the shift -/

/-- Where the flag is written first, the shift reads what Vx then holds: its old value, or the flag for x = F (R13). -/
theorem setVf_setReg_reg (s : State) (x : Reg) (f : Byte) (g : Nat → Nat) :
    let t := (s.setVf f).setReg x (BitVec.ofNat 8 (g ((s.setVf f).reg x).toNat))
    (x ≠ 0xF#4 → t.reg x = BitVec.ofNat 8 (g (s.reg x).toNat) ∧ t.reg 0xF#4 = f) ∧
    (x = 0xF#4 → t.reg 0xF#4 = BitVec.ofNat 8 (g f.toNat)) := by
  refine ⟨fun hx => ⟨?_, ?_⟩, ?_⟩
  · rw [setReg_reg_same, setVf_eq, setReg_reg_other _ _ _ _ hx]
  · rw [setReg_reg_other _ _ _ _ (Ne.symm hx), setVf_eq, setReg_reg_same]
  · rintro rfl
    rw [setReg_reg_same, setVf_eq, setReg_reg_same]

/-- Settles O41: for x = F the register shifted is the flag just written, 0 or 1. -/
theorem shiftsWriteBitShiftedOut : Obligations.ShiftsWriteBitShiftedOut := by
  intro x y s hpc
  have hbyte := (s.reg x).isLt
  refine ⟨decode_encode (.shr x y), decode_encode (.shl x y), ?shr, ?shl⟩
  case shr =>
    obtain ⟨t, hexec, htpc, hadv, hframe⟩ := exec_advances (i := .shr x y) rfl rfl rfl hpc
    obtain ⟨hother, hvf⟩ := setVf_setReg_reg s x (shiftedOutRight (s.reg x)) (· / 2)
    refine ⟨t, hexec, fun hx => ⟨?_, ?_⟩, fun hx => ?_, htpc, hframe⟩
    · rw [hadv.reg_eq, effect, (hother hx).1, BitVec.toNat_ofNat]
      omega
    · rw [hadv.reg_eq, effect, (hother hx).2, shiftedOutRight_toNat]
    · rw [hadv.reg_eq, effect, hvf hx, shiftedOutRight_toNat]
      simp only [Nat.div_eq_of_lt (Nat.mod_lt (s.reg x).toNat (Nat.succ_pos 1))]
      rfl
  case shl =>
    obtain ⟨t, hexec, htpc, hadv, hframe⟩ := exec_advances (i := .shl x y) rfl rfl rfl hpc
    obtain ⟨hother, hvf⟩ := setVf_setReg_reg s x (shiftedOutLeft (s.reg x)) (· * 2)
    refine ⟨t, hexec, fun hx => ⟨?_, ?_⟩, fun hx => ?_, htpc, hframe⟩
    · rw [hadv.reg_eq, effect, (hother hx).1, BitVec.toNat_ofNat, Nat.mul_comm]
    · rw [hadv.reg_eq, effect, (hother hx).2, shiftedOutLeft_toNat]
    · rw [hadv.reg_eq, effect, hvf hx, shiftedOutLeft_toNat, ← hx]
      split
      · rw [show (s.reg x).toNat / 128 = 1 by omega]; rfl
      · rw [show (s.reg x).toNat / 128 = 0 by omega]; rfl

/-! ### The random byte, the index sum, the wait -/

/-- Settles O42: the byte is masked bit by bit; in a cycle it is the one that step 1 took from the inputs. -/
theorem randomByteIsMasked : Obligations.RandomByteIsMasked := by
  intro x kk s hpc
  refine ⟨decode_encode (.rnd x kk), ?any, ?cycle⟩
  case any =>
    obtain ⟨t, hexec, hreg, hrest⟩ := complete_setReg_pcSeq (.rnd x kk) x (s.rnd &&& kk) hpc
    exact ⟨t, hexec, fun b => by rw [hreg, BitVec.getLsbD_and], hrest⟩
  case cycle =>
    obtain ⟨t, hexec, hreg, -⟩ :=
      complete_setReg_pcSeq (s := beginCycle s) (.rnd x kk) x ((currentInput s).rnd &&& kk) hpc
    exact ⟨t, hexec, fun b => by rw [hreg, BitVec.getLsbD_and]⟩

/-- Settles O44: the exact sum is taken before VF is written. -/
theorem indexAddWritesCarry : Obligations.IndexAddWritesCarry := by
  intro x s hpc
  obtain ⟨t, hexec, htpc, hadv, hframe⟩ := exec_advances (i := .addI x) rfl rfl rfl hpc
  have hi : t.i = BitVec.ofNat 12 (s.i.toNat + (s.reg x).toNat) := hadv.2 .index (by decide)
  refine ⟨decode_encode (.addI x), t, hexec, ?_, ?_, htpc, hframe⟩
  · rw [hi, BitVec.toNat_ofNat]
  · rw [hadv.reg_eq, effect, setVf_eq, setReg_reg_same, carry12_toNat]

/-- Settles O55: the await state and the pc are its two writes. -/
theorem awaitKeyEntersWait : Obligations.AwaitKeyEntersWait := by
  intro x s hpc
  obtain ⟨t, hexec, htpc, hadv, hframe⟩ := exec_advances (i := .ldVxK x) rfl rfl rfl hpc
  exact ⟨decode_encode (.ldVxK x), t, hexec, hadv.2 .await (by decide), htpc, hframe⟩

end Sys2Proof.Machine
end

section
/-! The instructions that move bytes at `I` (R174 to R176, R191): the digits, the registers and the
sprite. -/

namespace Sys2Proof.Machine

/-! ### The digits -/

theorem bcd_toNat (b : Byte) : (bcdHundreds b).toNat = b.toNat / 100 ∧ (bcdTens b).toNat = b.toNat / 10 % 10 ∧
    (bcdOnes b).toNat = b.toNat % 10 := by
  have := b.isLt
  simp only [bcdHundreds, bcdTens, bcdOnes, BitVec.toNat_ofNat]
  omega

/-- Settles O45: the three stores are read back, each digit fits a byte, and no other address is written. -/
theorem bcdStoresThreeDigits : Obligations.BcdStoresThreeDigits := by
  intro x s
  refine ⟨decode_encode (.ldB x), fun hpc hspan => ?_, exec_faulted_of_span_passes (i := .ldB x) rfl (Nat.succ_pos 2)⟩
  obtain ⟨t, hexec, htpc, hadv, hframe⟩ :=
    exec_advances ((earlyFault_eq_none_iff_span_fits (i := .ldB x) rfl).2 (.inr hspan)) rfl rfl hpc
  have hread : ∀ a, t.readByte a = (storeBcd (s.reg x) s).readByte a := hadv.2 .memory (by decide)
  obtain ⟨hhundreds, htens, hones⟩ := bcd_toNat (s.reg x)
  refine ⟨t, hexec, ?_, ?_, ?_, fun a ha => ?_, htpc, hframe⟩
  · simpa [hread, storeBcd_readByte] using hhundreds
  · simpa [hread, storeBcd_readByte] using htens
  · simpa [hread, storeBcd_readByte] using hones
  · exact (hread a).trans (storeBcd_sameMemoryOutside (s.reg x) s a ha)

/-! ### The registers -/

/-- Where the span fits, Fx55 leaves each register's byte at its place from `I` on. -/
theorem exec_ldMemVx (x : Reg) {s : State} (hpc : s.pc.toNat + 2 ≤ 0xFFF) (hspan : s.i.toNat + x.toNat ≤ 0xFFF) :
    ∃ t, exec (.ldMemVx x) s = .next t ∧ t.pc.toNat = s.pc.toNat + 2 ∧ Frame [] [.pc, .memory] s t ∧
      ∀ a, t.readByte a = (storeRegs (x.toNat + 1) s).readByte a := by
  obtain ⟨t, hexec, htpc, hadv, hframe⟩ :=
    exec_advances ((earlyFault_eq_none_iff_span_fits (i := .ldMemVx x) rfl).2 (.inr hspan)) rfl rfl hpc
  exact ⟨t, hexec, htpc, hframe, hadv.2 .memory (by decide)⟩

theorem storeRegs_readByte_reg (x r : Reg) (s : State) (hr : r.toNat ≤ x.toNat) :
    (storeRegs (x.toNat + 1) s).readByte (s.i.toNat + r.toNat) = s.reg r := by
  rw [storeRegs_readByte, if_pos (by omega), Nat.add_sub_cancel_left, regOfIndex_toNat]

/-- Settles O46: the stores are read back, and no other address is written. -/
theorem registerDumpStoresInOrder : Obligations.RegisterDumpStoresInOrder := by
  intro x s
  refine ⟨decode_encode (.ldMemVx x), fun hpc hspan => ?_,
    exec_faulted_of_span_passes (i := .ldMemVx x) rfl (Nat.succ_pos _)⟩
  obtain ⟨t, hexec, htpc, hframe, hread⟩ := exec_ldMemVx x hpc hspan
  exact ⟨t, hexec, fun r hr => (hread _).trans (storeRegs_readByte_reg x r s hr),
    fun a ha => (hread a).trans (storeRegs_sameMemoryOutside _ s a ha), htpc, hframe⟩

/-- Settles O25: the pc after the store stands at `I`, where the store put V0 and V1. -/
theorem storedCodeIsFetched : Obligations.StoredCodeIsFetched := by
  intro x s hx hi hspan
  obtain ⟨t, hexec, htpc, -, hread⟩ := exec_ldMemVx x (s := s) (by omega) hspan
  have hV0 := storeRegs_readByte_reg x 0 s (Nat.zero_le _)
  have hV1 := storeRegs_readByte_reg x 1 s hx
  refine ⟨t, hexec, ?_⟩
  rw [fetchWord, wordOfBytes, htpc, ← hi, hread, hread]
  exact congrArg₂ (· ++ ·) hV0 hV1

/-- Settles O47: the loads write V0 to Vx alone, each from its place. -/
theorem registerLoadReadsInOrder : Obligations.RegisterLoadReadsInOrder := by
  intro x s
  refine ⟨decode_encode (.ldVxMem x), fun hpc hspan => ?_,
    exec_faulted_of_span_passes (i := .ldVxMem x) rfl (Nat.succ_pos _)⟩
  obtain ⟨t, hexec, htpc, hadv, hframe⟩ :=
    exec_advances ((earlyFault_eq_none_iff_span_fits (i := .ldVxMem x) rfl).2 (.inr hspan)) rfl rfl hpc
  refine ⟨t, hexec, fun r => ?_, htpc, hframe⟩
  rw [hadv.reg_eq, effect, loadRegs_reg _ _ _ x.isLt]
  simp only [Nat.lt_succ_iff]

/-! ### The sprite -/

/-- The cell lies under a sprite bit of 1 of Dxyn (R191, R193). -/
abbrev underSprite (x y : Reg) (n : Nibble) (s : State) : Fin 32 → Fin 64 → Prop :=
  underRows s (s.reg x).toNat (s.reg y).toNat n.toNat

theorem underSprite_iff (x y : Reg) (n : Nibble) (s : State) (row : Fin 32) (col : Fin 64) :
    underSprite x y n s row col ↔ ∃ r b, r < n.toNat ∧ b < 8 ∧ row.val = ((s.reg y).toNat + r) % 32 ∧
      col.val = ((s.reg x).toNat + b) % 64 ∧ (s.readByte (s.i.toNat + r)).getLsbD (7 - b) = true := by
  constructor
  · rintro ⟨r, hr, hrow, b, hb, hcol, hbit⟩
    exact ⟨r, b, hr, hb, congrArg Fin.val hrow, congrArg Fin.val hcol, hbit⟩
  · rintro ⟨r, b, hr, hb, hrow, hcol, hbit⟩
    exact ⟨r, hr, Fin.ext hrow, b, hb, Fin.ext hcol, hbit⟩

/-- Where the span fits, Dxyn flips the cells under the sprite, and VF says whether one of them went off. -/
theorem exec_drw (x y : Reg) (n : Nibble) {s : State} (hpc : s.pc.toNat + 2 ≤ 0xFFF)
    (hspan : n = 0 ∨ s.i.toNat + n.toNat - 1 ≤ 0xFFF) :
    ∃ t, exec (.drw x y n) s = .next t ∧
      (∀ row col, pixel t.fb row col ≠ pixel s.fb row col ↔ underSprite x y n s row col) ∧
      (∃ hit : Bool, t.reg 0xF#4 = flagByte hit ∧
        (hit = true ↔ ∃ row col, pixel s.fb row col = true ∧ pixel t.fb row col = false)) ∧
      t.dirty = true ∧ t.pc.toNat = s.pc.toNat + 2 ∧ Frame [0xF#4] [.pc, .screen, .dirty] s t := by
  obtain ⟨t, hexec, htpc, hadv, hframe⟩ := exec_advances
    ((earlyFault_eq_none_iff_span_fits (i := .drw x y n) rfl).2 (hspan.imp_left (congrArg BitVec.toNat))) rfl rfl hpc
  obtain ⟨hflip, hhit⟩ := drawRows_flipped s (s.reg x).toNat (s.reg y).toNat n.toNat ⟨s.fb, false⟩ (by omega)
  have hflip' : ∀ row col, pixel t.fb row col ≠ pixel s.fb row col ↔ underSprite x y n s row col := fun row col => by
    rw [hadv.2 .screen (by decide) row col]
    exact hflip row col
  refine ⟨t, hexec, hflip', ⟨_, (hadv.reg_eq _).trans (setReg_reg_same _ _ _), ?_⟩, hadv.2 .dirty (by decide), htpc,
    hframe⟩
  rw [hhit]
  simp only [Bool.false_eq_true, false_or]
  refine exists_congr fun row => exists_congr fun col => ?_
  show underSprite x y n s row col ∧ pixel s.fb row col = true ↔ _
  rw [← hflip' row col]
  cases pixel s.fb row col <;> simp

/-- Settles O49: the loop's flips are the cells that the statement lists, and VF is the loop's collision bit. -/
theorem drawXorsSprite : Obligations.DrawXorsSprite := by
  intro x y n s
  refine ⟨decode_encode (.drw x y n), fun hpc hspan => ?_, fun hn hspan => ?_⟩
  · obtain ⟨t, hexec, hflip, ⟨hit, hvf, hhit⟩, hdirty, htpc, hframe⟩ := exec_drw x y n hpc hspan
    refine ⟨t, hexec, fun row col => (hflip row col).trans (underSprite_iff x y n s row col), fun hoff => ?_,
      fun hnone => ?_, hdirty, htpc, hframe⟩
    · rw [hvf, hhit.2 hoff]
      rfl
    · rw [hvf, Bool.eq_false_iff.2 fun h => hnone (hhit.1 h)]
      rfl
  · exact exec_faulted_of_span_passes (i := .drw x y n) rfl
      (Nat.pos_of_ne_zero fun h0 => hn (BitVec.eq_of_toNat_eq h0)) hspan

/-- A draw that left no fault ran to its end, so that the pc and the span fitted. -/
theorem drw_fits_of_no_fault {x y : Reg} {n : Nibble} {s t : State} (hexec : exec (.drw x y n) s = .next t)
    (htf : t.fault = none) : s.pc.toNat + 2 ≤ 0xFFF ∧ (n = 0 ∨ s.i.toNat + n.toNat - 1 ≤ 0xFFF) := by
  rcases exec_cases (.drw x y n) s with ⟨e, hnext, -, -⟩ | ⟨hnext, he, hpc⟩ <;> cases hnext.symm.trans hexec
  · exact nomatch htf
  · exact ⟨hpc, ((earlyFault_eq_none_iff_span_fits rfl).1 he).imp_left BitVec.eq_of_toNat_eq⟩

/-- The sprite's cells depend on the two coordinates, on `I` and on memory. -/
theorem underSprite_congr {x y : Reg} (n : Nibble) {s t : State} (hx : t.reg x = s.reg x) (hy : t.reg y = s.reg y)
    (hi : t.i = s.i) (hm : ∀ a, t.readByte a = s.readByte a) : underSprite x y n t = underSprite x y n s := by
  funext row col
  simp only [underSprite, underRows, effectiveAddr, hx, hy, hi, hm]

/-- Settles O51: the second draw flips the same cells back, and a cell it turns off is one that the first turned on. -/
theorem drawTwiceRestores : Obligations.DrawTwiceRestores := by
  intro x y n s t hexec htf hx hy htpc
  obtain ⟨hpc, hspan⟩ := drw_fits_of_no_fault hexec htf
  obtain ⟨t', hexec', hflip, -, -, -, hframe⟩ := exec_drw x y n hpc hspan
  cases hexec'.symm.trans hexec
  have hi : t.i = s.i := hframe.2 .index (by decide)
  have hcells := underSprite_congr n hx hy hi (hframe.2 .memory (by decide))
  obtain ⟨u, huexec, huflip, ⟨hit, hvf, hhit⟩, -, -, huframe⟩ := exec_drw x y n htpc (hi ▸ hspan)
  have hback : ∀ row col, pixel u.fb row col = pixel s.fb row col := fun row col => by
    have h1 := hflip row col
    have h2 := huflip row col
    rw [hcells, ← h1] at h2
    cases hs : pixel s.fb row col <;> cases ht : pixel t.fb row col <;> simp_all
  have hboth := hframe.trans huframe
  refine ⟨u, huexec, hback, ?_, fun r hr => hboth.1 r (by simpa using hr), fun p hp => ?_⟩
  · have hflag : flagByte hit = 1 ↔ hit = true := by cases hit <;> decide
    rw [hvf, hflag, hhit]
    simp only [hback, and_comm]
  · by_cases hscreen : p = .screen
    · subst hscreen
      exact hback
    · exact hboth.2 p (by simp_all)

end Sys2Proof.Machine
end
